-- ==== Sys2Proof/Config.lean ====
section
/-! DEFINITION. Config: what this hardware fixes once (00_scope.md rule R7) and the values the spec leaves open.
A parameter with a body has the value rule R7 gives it (assumption log entry 8). A constant without a body (`opaque`) is a free value: no
proof can see what it is. -/

namespace Sys2Proof.Config

/-- `W`, the register value width: 32 bits, two's complement (R7, 92_eei_decisions.md D1). -/
abbrev W : Nat := 32

/-- `INT_MIN = -2^(W-1)` (R7). -/
abbrev intMin : Int := -(2 ^ (W - 1))

/-- `INT_MAX = 2^(W-1) - 1` (R7). -/
abbrev intMax : Int := 2 ^ (W - 1) - 1

/-- `MEM_SIZE`, the number of memory cells: 100 (R7, D25). -/
abbrev memSize : Nat := 100

/-- `CALL_OVERFLOW_KEEPS_INCREMENT`: a `call` whose stack check fails leaves `sp` incremented (R7, D13). -/
def callOverflowKeepsIncrement : Bool := true

/-- `CLOCKS_PER_STEP`, OPEN (R7, R139, D20): the clocks that architectural cycle number `k` takes, "not necessarily the
same for every instruction". FREE VALUE, assumption log entry 9. No rule of the spec depends on it and no step reads it. -/
opaque clocksPerStep : Nat → Nat

/-- The human-readable text of a fault report, from its code, its `pc` and the text of its kind-specific value. The spec
fixes the fields (R102) and leaves the text open ("The text of the message is not specified", 93 I6: `any value`).
FREE VALUE, assumption log entry 10. -/
opaque faultMessage : Nat → Int → List Char → List Char

end Sys2Proof.Config
end

