-- ==== Sys2Proof/Word.lean ====
section
/-! DEFINITION. Word: the value a register holds and the narrowing of an exact integer to it (00_scope.md rules R7, R9). -/

namespace Sys2Proof

/-- A register value: a `W`-bit two's-complement integer (R9, R18). Its integer is `Word.toInt`, which lies in
`[INT_MIN, INT_MAX]`; exact arithmetic is done on that integer and narrowed by `wrap`. -/
abbrev Word : Type := BitVec Config.W

/-- `wrap(v)`: the exact integer `v` mapped to the `W`-bit two's-complement range (R9). -/
def wrap (v : Int) : Word := BitVec.ofInt Config.W v

/-- `v` lies in `[INT_MIN, INT_MAX]` (R7). -/
abbrev inRange (v : Int) : Prop := Config.intMin ≤ v ∧ v ≤ Config.intMax

end Sys2Proof
end

