-- ==== Sys2Proof/Syntax.lean ====
section
/-! DEFINITION. Syntax: tokens, cells, register names, opcodes and the instructions (10_state.md R17, R31;
30_encoding.md R56, R57, R64). -/

namespace Sys2Proof

/-- A token: a string, held as the list of its characters (R16, R59), any Unicode character being one (assumption log
entry 6). Which lists are tokens of a program is `Token.wf` in WellFormed.lean. -/
abbrev Token : Type := List Char

/-- A memory cell: an ordered, finite sequence of tokens, possibly empty (R31, R33). -/
abbrev Cell : Type := List Token

/-- The 13 registers, in declaration order (R17). -/
inductive Reg where
  | a | b | c | d | e | f | sp | acc | pc | ivec | int | timer | halt
deriving DecidableEq, Repr

/-- The 17 opcodes, in the order of the opcode map (R64). -/
inductive Opcode where
  | mov | movv | load | loadr | store | storer | add | sub | mod | call | ret | out | push | pop | jmp | jnz | halt
deriving DecidableEq, Repr

/-- The six instruction formats: the kinds of the operand tokens, in token order (R57). `R` is a register name, `I` a
decimal integer literal, `N` no operand. -/
inductive Format where
  | N | R | RR | RI | IR | I
deriving DecidableEq, Repr

/-- A decoded instruction: one constructor per row of the opcode table, its operands in token order (R57, R64). A register
operand is a register; an integer literal is the integer it denotes (assumption log entry 11). -/
inductive Instr where
  /-- R78 -/
  | mov (dst src : Reg)
  /-- R79 -/
  | movv (dst : Reg) (imm : Int)
  /-- R80 -/
  | load (dst : Reg) (addr : Int)
  /-- R81 -/
  | loadr (dst addrReg : Reg)
  /-- R82 -/
  | store (addr : Int) (src : Reg)
  /-- R83 -/
  | storer (addrReg src : Reg)
  /-- R84 -/
  | add (r1 r2 : Reg)
  /-- R85 -/
  | sub (r1 r2 : Reg)
  /-- R86 -/
  | mod (r1 r2 : Reg)
  /-- R89 -/
  | call (target : Int)
  /-- R90 -/
  | ret
  /-- R94 -/
  | out (r : Reg)
  /-- R91 -/
  | push (r : Reg)
  /-- R92 -/
  | pop (dst : Reg)
  /-- R96 -/
  | jmp (target : Int)
  /-- R97 -/
  | jnz (target : Int) (test : Reg)
  /-- R98 -/
  | halt
deriving DecidableEq, Repr

/-- The opcode of an instruction (R64). -/
def Instr.opcode : Instr → Opcode
  | .mov _ _ => .mov
  | .movv _ _ => .movv
  | .load _ _ => .load
  | .loadr _ _ => .loadr
  | .store _ _ => .store
  | .storer _ _ => .storer
  | .add _ _ => .add
  | .sub _ _ => .sub
  | .mod _ _ => .mod
  | .call _ => .call
  | .ret => .ret
  | .out _ => .out
  | .push _ => .push
  | .pop _ => .pop
  | .jmp _ => .jmp
  | .jnz _ _ => .jnz
  | .halt => .halt

end Sys2Proof
end

