-- ==== Sys2Proof/WellFormed.lean ====
section
/-! DEFINITION. WellFormed: which instructions, tokens, cells and program images the spec admits, each as a Bool. -/

namespace Sys2Proof

/-- White space. The spec says only "containing no whitespace" (R59); the six ASCII white-space characters are the
model's reading, assumption log entry 6. -/
def isBlank (c : Char) : Bool :=
  c == ' ' || c == '\t' || c == '\n' || c == '\r' || c.toNat == 11 || c.toNat == 12

/-- "A token is a non-empty string containing no whitespace" (R59). -/
def Token.wf (t : Token) : Bool := !t.isEmpty && t.all (fun c => !isBlank c)

/-- Every token of the cell is a token (R33). An empty cell is allowed: the image may hold one (R33, R128). -/
def Cell.wf (c : Cell) : Bool := c.all Token.wf

/-- An integer literal's value lies in `[INT_MIN, INT_MAX]` (R60). -/
def literalWf (v : Int) : Bool := decide (inRange v)

/-- Every integer literal of the instruction is in range (R60). A register operand is a register by its type. -/
def Instr.wf : Instr → Bool
  | .mov _ _ => true
  | .movv _ imm => literalWf imm
  | .load _ addr => literalWf addr
  | .loadr _ _ => true
  | .store addr _ => literalWf addr
  | .storer _ _ => true
  | .add _ _ => true
  | .sub _ _ => true
  | .mod _ _ => true
  | .call target => literalWf target
  | .ret => true
  | .out _ => true
  | .push _ => true
  | .pop _ => true
  | .jmp target => literalWf target
  | .jnz target _ => literalWf target
  | .halt => true

/-- A program image: a list of (address, token sequence) pairs (R128). -/
abbrev Image : Type := List (Nat × Cell)

/-- What the loader guarantees: every address lies in `[0, MEM_SIZE)` (R128) and every token is a token (R59). -/
def Image.wf (img : Image) : Bool := img.all (fun p => decide (p.1 < Config.memSize) && Cell.wf p.2)

end Sys2Proof
end

