-- ==== Sys2Proof/Decode.lean ====
section
/-! DEFINITION. Decode: integer tokens, names, the decoder from a cell's tokens to an instruction, the encoder beside it,
and the host's text words (30_encoding.md R56 to R68). The spec's encoding is textual: an instruction is the token
sequence of one cell, and there is no binary encoding (R56). -/

namespace Sys2Proof

/-! ### Integer tokens (R60, R61) -/

/-- The value of an ASCII decimal digit (R60). -/
def digitValue (c : Char) : Option Nat :=
  if 48 ≤ c.toNat ∧ c.toNat ≤ 57 then some (c.toNat - 48) else none

/-- The number that `n`, followed by the digits of the list, denotes. No value if a character is not a digit. -/
def parseDigits (n : Nat) : List Char → Option Nat
  | [] => some n
  | c :: cs =>
    match digitValue c with
    | some d => parseDigits (10 * n + d) cs
    | none => none

/-- `[0-9]+`: one or more ASCII digits, leading zeros allowed (R60). -/
def parseNat : List Char → Option Nat
  | [] => none
  | c :: cs => parseDigits 0 (c :: cs)

/-- `[+-]?[0-9]+`, whatever its size (R60). -/
def parseDecimal : Token → Option Int
  | [] => none
  | c :: cs =>
    if c = '-' then (parseNat cs).map (fun (n : Nat) => -(n : Int))
    else if c = '+' then (parseNat cs).map (fun (n : Nat) => (n : Int))
    else (parseNat (c :: cs)).map (fun (n : Nat) => (n : Int))

/-- `parseInt(t)`: the value of a valid decimal integer in `[INT_MIN, INT_MAX]`. No value means `OperandParseError`
(R60). -/
def parseInt (t : Token) : Option Int :=
  match parseDecimal t with
  | some v => if inRange v then some v else none
  | none => none

/-- The decimal digits of `n`, most significant first, by at most `fuel` divisions. -/
def decDigits : Nat → Nat → List Char
  | 0, _ => []
  | fuel + 1, n =>
    if n < 10 then [Char.ofNat (48 + n)] else decDigits fuel (n / 10) ++ [Char.ofNat (48 + n % 10)]

/-- The digits of `n` without leading zeros, `"0"` for zero (R61). -/
def decNat (n : Nat) : Token := decDigits (Nat.log2 n + 1) n

/-- `dec(v)`: the canonical decimal token of an integer (R61). -/
def dec (v : Int) : Token := if v < 0 then '-' :: decNat v.natAbs else decNat v.natAbs

/-! ### Names (R17, R58, R64) -/

/-- The registers in declaration order (R17, R29). -/
def Reg.all : List Reg := [.a, .b, .c, .d, .e, .f, .sp, .acc, .pc, .ivec, .int, .timer, .halt]

/-- The name of a register, a case-sensitive string (R17, R58). -/
def Reg.name : Reg → Token
  | .a => "a".toList
  | .b => "b".toList
  | .c => "c".toList
  | .d => "d".toList
  | .e => "e".toList
  | .f => "f".toList
  | .sp => "sp".toList
  | .acc => "acc".toList
  | .pc => "pc".toList
  | .ivec => "ivec".toList
  | .int => "int".toList
  | .timer => "timer".toList
  | .halt => "halt".toList

/-- The register a token names: exactly one of the 13 names. No value means `UnknownRegister` (R58). -/
def Reg.ofToken (t : Token) : Option Reg := Reg.all.find? (fun r => r.name == t)

/-- The decoder's register number, 0 to 12. Nothing observes it (R17, R68). -/
def Reg.index (r : Reg) : Nat := Reg.all.idxOf r

/-- The opcodes in the order of the opcode map (R64). -/
def Opcode.all : List Opcode :=
  [.mov, .movv, .load, .loadr, .store, .storer, .add, .sub, .mod, .call, .ret, .out, .push, .pop, .jmp, .jnz, .halt]

/-- The name of an opcode, a case-sensitive string (R64). -/
def Opcode.name : Opcode → Token
  | .mov => "mov".toList
  | .movv => "movv".toList
  | .load => "load".toList
  | .loadr => "loadr".toList
  | .store => "store".toList
  | .storer => "storer".toList
  | .add => "add".toList
  | .sub => "sub".toList
  | .mod => "mod".toList
  | .call => "call".toList
  | .ret => "ret".toList
  | .out => "out".toList
  | .push => "push".toList
  | .pop => "pop".toList
  | .jmp => "jmp".toList
  | .jnz => "jnz".toList
  | .halt => "halt".toList

/-- The opcode a token selects, by exact comparison. No value means `InvalidOpcode` (R64, R65). The token `halt` is an opcode
name and a register name; as token 0 it is the opcode (assumption log entry 2). -/
def Opcode.ofToken (t : Token) : Option Opcode := Opcode.all.find? (fun o => o.name == t)

/-- The decoder's opcode number, 0 to 16. Nothing observes it (R68). -/
def Opcode.index (o : Opcode) : Nat := Opcode.all.idxOf o

/-- The format of each opcode (R57, R64). -/
def Opcode.format : Opcode → Format
  | .ret | .halt => .N
  | .out | .push | .pop => .R
  | .mov | .loadr | .storer | .add | .sub | .mod => .RR
  | .movv | .load => .RI
  | .store | .jnz => .IR
  | .call | .jmp => .I

/-- How many operand tokens a format needs (R62). -/
def Format.arity : Format → Nat
  | .N => 0
  | .R | .I => 1
  | .RR | .RI | .IR => 2

/-! ### The decoder (R56 to R66) -/

/-- Why a cell holds no well-formed instruction. `emptyCell` is found at fetch (R70) and `invalidOpcode` at dispatch
(R72). The other three are found by the handler, which decodes its operands in token order (R63). -/
inductive DecodeFault where
  /-- the cell has no token: `InvalidProgramCounter` (R70) -/
  | emptyCell
  /-- token 0 is none of the 17 opcode names (R65, R72) -/
  | invalidOpcode (opcode : Token)
  /-- fewer operand tokens than the format needs (R62) -/
  | missingOperand (opcode : Token)
  /-- a token in a register position that is none of the 13 names (R58) -/
  | unknownRegister (token : Token)
  /-- a token in an integer position that is no valid decimal integer (R60) -/
  | operandParseError (token : Token)
deriving DecidableEq, Repr

/-- What a cell decodes to. -/
inductive Decoded where
  | instr (i : Instr)
  | bad (f : DecodeFault)
deriving DecidableEq, Repr

/-- Decode the next operand token as a register (R58, R62) and go on with the tokens after it. -/
def withReg (op : Token) (ts : List Token) (k : Reg → List Token → Decoded) : Decoded :=
  match ts with
  | [] => .bad (.missingOperand op)
  | t :: rest =>
    match Reg.ofToken t with
    | some r => k r rest
    | none => .bad (.unknownRegister t)

/-- Decode the next operand token as an integer literal (R60, R62) and go on with the tokens after it. -/
def withInt (op : Token) (ts : List Token) (k : Int → List Token → Decoded) : Decoded :=
  match ts with
  | [] => .bad (.missingOperand op)
  | t :: rest =>
    match parseInt t with
    | some v => k v rest
    | none => .bad (.operandParseError t)

/-- Format `R` (R57). Tokens after the operand are ignored (R62). -/
def decodeR (op : Token) (mk : Reg → Instr) (ts : List Token) : Decoded :=
  withReg op ts fun r _ => .instr (mk r)

/-- Format `I` (R57). -/
def decodeI (op : Token) (mk : Int → Instr) (ts : List Token) : Decoded :=
  withInt op ts fun v _ => .instr (mk v)

/-- Format `RR` (R57). -/
def decodeRR (op : Token) (mk : Reg → Reg → Instr) (ts : List Token) : Decoded :=
  withReg op ts fun r1 ts1 => withReg op ts1 fun r2 _ => .instr (mk r1 r2)

/-- Format `RI` (R57). -/
def decodeRI (op : Token) (mk : Reg → Int → Instr) (ts : List Token) : Decoded :=
  withReg op ts fun r ts1 => withInt op ts1 fun v _ => .instr (mk r v)

/-- Format `IR` (R57). -/
def decodeIR (op : Token) (mk : Int → Reg → Instr) (ts : List Token) : Decoded :=
  withInt op ts fun v ts1 => withReg op ts1 fun r _ => .instr (mk v r)

/-- The operand decoding of each opcode's handler (R63, R64). -/
def decodeOperands (o : Opcode) (ts : List Token) : Decoded :=
  match o with
  | .mov => decodeRR o.name .mov ts
  | .movv => decodeRI o.name .movv ts
  | .load => decodeRI o.name .load ts
  | .loadr => decodeRR o.name .loadr ts
  | .store => decodeIR o.name .store ts
  | .storer => decodeRR o.name .storer ts
  | .add => decodeRR o.name .add ts
  | .sub => decodeRR o.name .sub ts
  | .mod => decodeRR o.name .mod ts
  | .call => decodeI o.name .call ts
  | .ret => .instr .ret
  | .out => decodeR o.name .out ts
  | .push => decodeR o.name .push ts
  | .pop => decodeR o.name .pop ts
  | .jmp => decodeI o.name .jmp ts
  | .jnz => decodeIR o.name .jnz ts
  | .halt => .instr .halt

/-- The decoder: split the cell into opcode and operands, dispatch on the opcode, decode the operands (R71, R72, R63). -/
def decodeCell (c : Cell) : Decoded :=
  match c with
  | [] => .bad .emptyCell
  | t :: ts =>
    match Opcode.ofToken t with
    | some o => decodeOperands o ts
    | none => .bad (.invalidOpcode t)

/-! ### The encoder -/

/-- The operand tokens of an instruction (R57), an integer written as its canonical token (R61). -/
def operandTokens : Instr → List Token
  | .mov dst src => [dst.name, src.name]
  | .movv dst imm => [dst.name, dec imm]
  | .load dst addr => [dst.name, dec addr]
  | .loadr dst addrReg => [dst.name, addrReg.name]
  | .store addr src => [dec addr, src.name]
  | .storer addrReg src => [addrReg.name, src.name]
  | .add r1 r2 => [r1.name, r2.name]
  | .sub r1 r2 => [r1.name, r2.name]
  | .mod r1 r2 => [r1.name, r2.name]
  | .call target => [dec target]
  | .ret => []
  | .out r => [r.name]
  | .push r => [r.name]
  | .pop dst => [dst.name]
  | .jmp target => [dec target]
  | .jnz target test => [dec target, test.name]
  | .halt => []

/-- The tokens of an instruction's cell (R56, R57). -/
def encode (i : Instr) : Cell := i.opcode.name :: operandTokens i

/-! ### The host's words: the assembly line of R67 as ASCII text (assumption log entry 3) -/

/-- Split a line into tokens at white space; `cur` is the token being read. -/
def splitFrom (cur : Token) : List Char → Cell
  | [] => if cur.isEmpty then [] else [cur]
  | c :: cs =>
    if isBlank c then (if cur.isEmpty then splitFrom [] cs else cur :: splitFrom [] cs)
    else splitFrom (cur ++ [c]) cs

/-- The cell an assembly line names, without its address: tokens separated by spaces (R67). -/
def cellOfLine (line : List Char) : Cell := splitFrom [] line

/-- The `n` low bytes of `w`, the least significant first. -/
def bytesOf : Nat → Nat → List Nat
  | 0, _ => []
  | n + 1, w => w % 256 :: bytesOf n (w / 256)

/-- The cell a host word stands for: its bytes, the least significant first, are the ASCII characters of the
instruction's line, and the first zero byte ends the line. -/
def cellOfWord (nbits w : Nat) : Cell :=
  cellOfLine (((bytesOf ((nbits + 7) / 8) w).takeWhile (fun b => b != 0)).map Char.ofNat)

/-- The instruction the decoder reads from a host word; none where it refuses. -/
def decodeTableWord (nbits w : Nat) : Option Instr :=
  match decodeCell (cellOfWord nbits w) with
  | .instr i => some i
  | .bad _ => none

end Sys2Proof
end

