-- ==== Sys2Proof/Machine/State.lean ====
section
/-! DEFINITION. State: everything the spec gives the machine, as plain data (10_state.md R17 to R38), the fault reports
(60_exceptions.md R101, R102), and the state after reset (70_reset_and_hazards.md R126 to R129). -/

namespace Sys2Proof.Machine

/-- The register file: 13 named registers in declaration order, one `W`-bit signed integer each (R17, R18). There are no
banks, shadows or aliases (R20) and no flags beyond `int` and `halt` (R30). -/
structure RegFile where
  a : Word
  b : Word
  c : Word
  d : Word
  e : Word
  f : Word
  /-- stack pointer, the address of the top stack cell (R25) -/
  sp : Word
  /-- accumulator (R22) -/
  acc : Word
  /-- program counter, the cell to fetch (R23, R24) -/
  pc : Word
  /-- interrupt vector (R26) -/
  ivec : Word
  /-- interrupt arm flag (R27) -/
  int : Word
  /-- interrupt countdown (R28) -/
  timer : Word
  /-- stop flag (R29) -/
  halt : Word
deriving DecidableEq, Repr

/-- The memory array of `MEM_SIZE` cells (R31), as the listed cells only: addresses strictly rising, each below
`MEM_SIZE`, and no listed cell equal to what an unlisted address reads as (`blankCell` in Ops.lean). A cell holds tokens and
has no byte representation (R43; assumption log entry 1). -/
abbrev Memory : Type := List (Nat × Cell)

/-- The two states of the engine's loop; `halted` is terminal (R34). -/
inductive RunState where
  | running
  | halted
deriving DecidableEq, Repr

/-- The nine fault kinds (R101). -/
inductive FaultKind where
  | invalidProgramCounter
  | invalidOpcode
  | invalidMemoryAccess
  | stackOverflow
  | stackUnderflow
  | operandParseError
  | divideByZero
  | unknownRegister
  | missingOperand
deriving DecidableEq, Repr

/-- A fault with its kind-specific value (R101, R102). An address is an exact integer: `sp + 1` in it does not wrap. -/
inductive FaultInfo where
  /-- raised by fetch (R70) -/
  | invalidProgramCounter
  /-- raised by dispatch (R72) -/
  | invalidOpcode (opcode : Token)
  /-- raised by `load`, `loadr`, `store`, `storer`, and by `pop` and `ret` on an empty cell (R42) -/
  | invalidMemoryAccess (addr : Int)
  /-- raised by `call`, `push`, `pop`, `ret` and injection (R93, R115) -/
  | stackOverflow (addr : Int)
  /-- raised by `call`, `push`, `pop`, `ret` and injection (R93, R115) -/
  | stackUnderflow (addr : Int)
  /-- raised by operand decoding and by data and stack reads (R60) -/
  | operandParseError (token : Token)
  /-- raised by `mod` (R86) -/
  | divideByZero (divisor : Reg)
  /-- raised by operand decoding (R58) -/
  | unknownRegister (token : Token)
  /-- raised by operand decoding (R62) -/
  | missingOperand (opcode : Token)
deriving DecidableEq, Repr

/-- One entry of the fault log: `pc` when the fault is detected, and the fault (R102). -/
structure FaultReport where
  pc : Word
  info : FaultInfo
deriving DecidableEq, Repr

/-- Why a step stops with a fault: never. Every fault of this hardware has its effect in State (a report in the fault
log and `halt` set, R103; "All faults are non-fatal to the host process", R100), so every step answers a next state and
this type has no constructor (assumption log entry 4, safe). -/
inductive Fault where
deriving DecidableEq, Repr

/-- Why a step is refused. -/
inductive Refusal where
  /-- raised by an arm of `exec` whose instruction has no meaning yet; no arm does (safe) -/
  | notModelled (mnemonic : String)
deriving DecidableEq, Repr

/-- The machine state (10_state.md, opening and R37): "Nothing else is state". -/
structure State where
  /-- the register file (R17) -/
  regs : RegFile
  /-- the memory array (R31) -/
  mem : Memory
  /-- the run state (R34) -/
  run : RunState
  /-- the output stream, oldest first (R35); its order against the fault log is not kept (R95, assumption log entry 12) -/
  output : List Word
  /-- the fault log, oldest first (R36) -/
  faultLog : List FaultReport
deriving DecidableEq, Repr

/-- "All registers initialize to 0" (R17, R126). -/
def RegFile.reset : RegFile :=
  { a := 0, b := 0, c := 0, d := 0, e := 0, f := 0, sp := 0, acc := 0, pc := 0, ivec := 0, int := 0, timer := 0, halt := 0 }

/-- The machine right after reset, before a program image: registers 0 (R126), every cell unlisted (R127), `Running`,
output stream and fault log empty (R129). -/
def State.reset : State :=
  { regs := RegFile.reset, mem := [], run := .running, output := [], faultLog := [] }

end Sys2Proof.Machine
end

