-- ==== Sys2Proof/Machine/Ops.lean ====
section
/-! DEFINITION. Ops: the named operations over registers and memory, raising a fault, the timer tick, and interrupt
injection with the stack operations it shares with `call`, `ret`, `push` and `pop`. -/

namespace Sys2Proof.Machine

/-! ### Registers (R10, R19) -/

/-- Read a register of the file by name. -/
def RegFile.get (g : RegFile) : Reg → Word
  | .a => g.a
  | .b => g.b
  | .c => g.c
  | .d => g.d
  | .e => g.e
  | .f => g.f
  | .sp => g.sp
  | .acc => g.acc
  | .pc => g.pc
  | .ivec => g.ivec
  | .int => g.int
  | .timer => g.timer
  | .halt => g.halt

/-- Write a register of the file by name. No register is hard-wired or write-ignored (R19). -/
def RegFile.set (g : RegFile) (r : Reg) (v : Word) : RegFile :=
  match r with
  | .a => { g with a := v }
  | .b => { g with b := v }
  | .c => { g with c := v }
  | .d => { g with d := v }
  | .e => { g with e := v }
  | .f => { g with f := v }
  | .sp => { g with sp := v }
  | .acc => { g with acc := v }
  | .pc => { g with pc := v }
  | .ivec => { g with ivec := v }
  | .int => { g with int := v }
  | .timer => { g with timer := v }
  | .halt => { g with halt := v }

/-- `x[r]` (R10). -/
def State.reg (s : State) (r : Reg) : Word := s.regs.get r

/-- `x[r] <- v` (R10). -/
def State.setReg (s : State) (r : Reg) (v : Word) : State := { s with regs := s.regs.set r v }

/-- `pc <- wrap(pc + 1)`, the last statement of every handler that does not redirect `pc` (R74). -/
def State.advancePc (s : State) : State := s.setReg .pc (wrap ((s.reg .pc).toInt + 1))

/-! ### Memory (R40, R41) -/

/-- What a cell that nothing has written holds: `["0"]` (R31, R127). -/
def blankCell : Cell := ["0".toList]

/-- An address of the array: `0 <= a < MEM_SIZE`, compared as exact integers (R42, D29). -/
abbrev inArray (a : Int) : Prop := 0 ≤ a ∧ a < (Config.memSize : Int)

/-- The cell at an address; an unlisted one is blank. -/
def Memory.read (m : Memory) (a : Nat) : Cell :=
  match m with
  | [] => blankCell
  | (b, c) :: rest => if b = a then c else Memory.read rest a

/-- The memory with an address no longer listed, so that its cell is blank. -/
def Memory.erase (m : Memory) (a : Nat) : Memory :=
  match m with
  | [] => []
  | (b, c) :: rest => if b = a then Memory.erase rest a else (b, c) :: Memory.erase rest a

/-- The memory with an unlisted address listed, at its place in the rising order. -/
def Memory.insert (m : Memory) (a : Nat) (c : Cell) : Memory :=
  match m with
  | [] => [(a, c)]
  | (b, d) :: rest => if a < b then (a, c) :: (b, d) :: rest else (b, d) :: Memory.insert rest a c

/-- The memory with one whole cell replaced, in canonical form: a blank cell is not listed. -/
def Memory.set (m : Memory) (a : Nat) (c : Cell) : Memory :=
  if c = blankCell then Memory.erase m a else Memory.insert (Memory.erase m a) a c

/-- Every listed address is at least `lo`, the addresses strictly rise and lie in the array, and no listed cell is blank. -/
def Memory.wfFrom (lo : Nat) : Memory → Bool
  | [] => true
  | (b, c) :: rest => decide (lo ≤ b) && decide (b < Config.memSize) && !(c == blankCell) && Memory.wfFrom (b + 1) rest

/-- The canonical form of the memory list: equal memories are equal lists. -/
def Memory.wf (m : Memory) : Bool := Memory.wfFrom 0 m

/-- A cell with its first token replaced and the rest kept; an empty cell becomes that one token (R41, D16). -/
def replaceFirst (t : Token) : Cell → Cell
  | [] => [t]
  | _ :: ts => t :: ts

/-- `MemRead(a, 1)`, for an address the caller has checked (R38, R40). -/
def State.cell (s : State) (a : Nat) : Cell := Memory.read s.mem a

/-- `MemWrite(a, 1, v)`, for an address the caller has checked (R38, R41): the decimal token of `v` becomes token 0. -/
def State.memWrite (s : State) (a : Nat) (v : Int) : State :=
  { s with mem := Memory.set s.mem a (replaceFirst (dec v) (s.cell a)) }

/-! ### Output and faults -/

/-- `emit(v)` (R13, R94): append to the output stream. -/
def State.emit (s : State) (v : Word) : State := { s with output := s.output ++ [v] }

/-- The kind of a fault (R101). -/
def FaultInfo.kind : FaultInfo → FaultKind
  | .invalidProgramCounter => .invalidProgramCounter
  | .invalidOpcode _ => .invalidOpcode
  | .invalidMemoryAccess _ => .invalidMemoryAccess
  | .stackOverflow _ => .stackOverflow
  | .stackUnderflow _ => .stackUnderflow
  | .operandParseError _ => .operandParseError
  | .divideByZero _ => .divideByZero
  | .unknownRegister _ => .unknownRegister
  | .missingOperand _ => .missingOperand

/-- The code of a fault kind (R101, D18). -/
def FaultKind.code : FaultKind → Nat
  | .invalidProgramCounter => 1
  | .invalidOpcode => 2
  | .invalidMemoryAccess => 3
  | .stackOverflow => 4
  | .stackUnderflow => 5
  | .operandParseError => 6
  | .divideByZero => 7
  | .unknownRegister => 8
  | .missingOperand => 9

/-- `raise K(info)`, the one way every fault is taken (R12, R103): the report, with `pc` as it stands, goes to the fault
log, and `halt` becomes 1. Nothing else changes. Ending the step that raised it is the caller's part. -/
def State.raise (s : State) (f : FaultInfo) : State :=
  { s with
    regs := s.regs.set .halt 1
    faultLog := s.faultLog ++ [{ pc := s.reg .pc, info := f }] }

/-- The fault a decoding failure raises (R58, R60, R62, R70, R72). -/
def decodeFaultInfo : DecodeFault → FaultInfo
  | .emptyCell => .invalidProgramCounter
  | .invalidOpcode t => .invalidOpcode t
  | .missingOperand t => .missingOperand t
  | .unknownRegister t => .unknownRegister t
  | .operandParseError t => .operandParseError t

/-! ### The stack (R93) and the timer interrupt (R112, R115) -/

/-- The fault of a stack access at address `n`, if it is outside the array (R93): `n` is `sp + 1` for a write and `sp` for
a read, an exact integer (D29). -/
def stackFault (n : Int) : Option FaultInfo :=
  if (Config.memSize : Int) ≤ n then some (.stackOverflow n)
  else if n < 0 then some (.stackUnderflow n)
  else none

/-- The address a stack write uses: `sp + 1`, exact (R93). -/
def State.nextTop (s : State) : Int := (s.reg .sp).toInt + 1

/-- The timer tick (R112). -/
def State.tick (s : State) : State := s.setReg .timer (wrap ((s.reg .timer).toInt - 1))

/-- Injection, the entry of the timer interrupt (R115): push the current `pc`, continue at `ivec`, disarm. On a full or
invalid stack it raises instead, with `sp`, `pc` and `int` unchanged. -/
def State.inject (s : State) : State :=
  match stackFault s.nextTop with
  | some f => s.raise f
  | none =>
    let s1 := s.setReg .sp (wrap s.nextTop)
    let s2 := s1.memWrite s.nextTop.toNat (s1.reg .pc).toInt
    let s3 := s2.setReg .pc (s2.reg .ivec)
    s3.setReg .int 0

/-- The return from a subroutine or from the interrupt (R90, R117), once the top of the stack has been read as `v`: `pc` is
the popped value verbatim, and `sp` goes down by one. -/
def State.returnTo (s : State) (v : Int) : State :=
  let s1 := s.setReg .pc (wrap v)
  s1.setReg .sp (wrap ((s1.reg .sp).toInt - 1))

end Sys2Proof.Machine
end

