-- ==== Sys2Proof/Machine/Flags.lean ====
section
/-! DEFINITION. Flags: the conditions the machine tests. There are no condition codes (R30): the only flag-like registers
are `int` and `halt`, and the only conditional instruction tests a named register against zero. -/

namespace Sys2Proof.Machine

/-- The halt check finds `halt != 0` (R29, R69). -/
def haltRequested (s : State) : Bool := !(s.reg .halt == 0)

/-- Armed: `int == 1` exactly; every other value masks the interrupt (R16, R27, R111). -/
def armed (s : State) : Bool := s.reg .int == 1

/-- Due: `timer == 0`, tested after the tick (R16, R114). -/
def due (s : State) : Bool := s.reg .timer == 0

/-- The injection condition (R114). -/
def injectionDue (s : State) : Bool := armed s && due s

/-- The condition of `jnz` (R97): any nonzero value, negative included. -/
def testNonzero (r : Reg) (s : State) : Bool := !(s.reg r == 0)

end Sys2Proof.Machine
end

