-- ==== Sys2Proof/Machine/Operands.lean ====
section
/-! DEFINITION. Operands: the operand forms of the instructions and the checked reads and writes behind them (R42, R57).
A register operand is read by `State.reg` and written by `State.setReg`; a memory operand's address is a literal or the
value of a register. -/

namespace Sys2Proof.Machine

/-- The address an integer literal operand gives (R80, R82). -/
def literalAddr (addr : Int) : Int := addr

/-- The address a register operand gives (R81, R83). -/
def registerAddr (r : Reg) (s : State) : Int := (s.reg r).toInt

/-- Token 0 of a cell read as data, the cell being at address `a`: an empty cell raises `InvalidMemoryAccess` (R42, D15),
a token that is no valid decimal integer raises `OperandParseError` (R45). Tokens after the first are ignored (R40). -/
def cellInt (a : Int) (c : Cell) : Except FaultInfo Int :=
  match c with
  | [] => .error (.invalidMemoryAccess a)
  | t :: _ =>
    match parseInt t with
    | some v => .ok v
    | none => .error (.operandParseError t)

/-- A data read at address `a`: the range check, then the cell (R42, R80). -/
def readData (a : Int) (s : State) : Except FaultInfo Int :=
  if inArray a then cellInt a (s.cell a.toNat) else .error (.invalidMemoryAccess a)

/-- The effect of `load` and `loadr` once the address is known (R80, R81). -/
def loadInto (dst : Reg) (a : Int) (s : State) : State :=
  match readData a s with
  | .error f => s.raise f
  | .ok v => (s.setReg dst (wrap v)).advancePc

/-- The effect of `store` and `storer` once the address is known (R82, R83). There is no emptiness check. -/
def storeFrom (a : Int) (src : Reg) (s : State) : State :=
  if inArray a then (s.memWrite a.toNat (s.reg src).toInt).advancePc
  else s.raise (.invalidMemoryAccess a)

/-- A stack read: the top cell, after the bounds checks (R42, R90, R92). -/
def readTop (s : State) : Except FaultInfo Int :=
  match stackFault (s.reg .sp).toInt with
  | some f => .error f
  | none => cellInt (s.reg .sp).toInt (s.cell (s.reg .sp).toInt.toNat)

end Sys2Proof.Machine
end

