-- ==== Sys2Proof/Machine/Cycle.lean ====
section
/-! DEFINITION. Cycle: the parts of one architectural cycle around the handler (30_encoding.md R69 to R76): the halt check,
fetch, decoding, the timer tick with the injection check, and the host's placing of one instruction. -/

namespace Sys2Proof.Machine

/-- The halt check has found `halt != 0`: the engine enters `Halted` and nothing else changes (R34, R69). -/
def State.enterHalted (s : State) : State := { s with run := .halted }

/-- Step 1 (R70): the cell at `pc`. None means `InvalidProgramCounter`: `pc` outside the array, or an empty cell. -/
def fetch (s : State) : Option Cell :=
  if inArray (s.reg .pc).toInt then
    match s.cell (s.reg .pc).toInt.toNat with
    | [] => none
    | t :: ts => some (t :: ts)
  else none

/-- How steps 1 to 3 and the operand decoding of step 4 come out. -/
inductive Fetched where
  /-- a fault of step 1 or step 3, which ends the cycle: no tick, no injection (R75) -/
  | ends (f : FaultInfo)
  /-- a fault of the handler's operand decoding, after which the tick and the injection check still run (R63, R75) -/
  | handlerFault (f : FaultInfo)
  /-- an instruction, whose effect is `exec` -/
  | runs (i : Instr)
deriving DecidableEq, Repr

/-- Where the cycle stands after a decoding failure (R75). -/
def fetchedFault (f : DecodeFault) : Fetched :=
  match f with
  | .emptyCell | .invalidOpcode _ => .ends (decodeFaultInfo f)
  | .missingOperand _ | .unknownRegister _ | .operandParseError _ => .handlerFault (decodeFaultInfo f)

/-- Steps 1 to 3 and the operand decoding of step 4 (R63, R70 to R72). They change no state. -/
def fetchDecode (s : State) : Fetched :=
  match fetch s with
  | none => .ends .invalidProgramCounter
  | some c =>
    match decodeCell c with
    | .instr i => .runs i
    | .bad f => fetchedFault f

/-- Steps 5 and 6 (R73, R112, R114): the tick, then the injection if it is due after the tick. -/
def State.endOfCycle (s : State) : State :=
  if injectionDue s.tick then s.tick.inject else s.tick

/-- The state ready to fetch: `Running`, with `halt` 0 and `pc` in the array. What already is so is left alone. -/
def State.readyToFetch (s : State) : State :=
  let s1 := if haltRequested s then s.setReg .halt 0 else s
  let s2 := if inArray (s1.reg .pc).toInt then s1 else s1.setReg .pc 0
  { s2 with run := .running }

/-- A whole cell placed at the cell `pc` names, as the program image places one (R128). -/
def State.placeAtPc (s : State) (c : Cell) : State :=
  { s with mem := Memory.set s.mem (s.reg .pc).toInt.toNat c }

end Sys2Proof.Machine
end

