-- ==== Sys2Proof/Machine/Arithmetic.lean ====
section
/-! DEFINITION. Arithmetic: `add`, `sub`, `mod` (41_arithmetic.md). Every result goes to `acc` (R22), is computed exactly
and is narrowed by `wrap`; overflow is silent (R87). -/

namespace Sys2Proof.Machine

/-- The truncating remainder `n rem d = n - d * trunc(n / d)` (R86). -/
def truncRem (n d : Int) : Int := n - d * n.tdiv d

/-- Write a result to the accumulator and advance. -/
def State.toAcc (s : State) (v : Int) : State := (s.setReg .acc (wrap v)).advancePc

/-- `add r1, r2` (R84). -/
def execAdd (r1 r2 : Reg) (s : State) : Host.Outcome State Fault Refusal :=
  .next (s.toAcc ((s.reg r1).toInt + (s.reg r2).toInt))

/-- `sub r1, r2` (R85). -/
def execSub (r1 r2 : Reg) (s : State) : Host.Outcome State Fault Refusal :=
  .next (s.toAcc ((s.reg r1).toInt - (s.reg r2).toInt))

/-- `mod r1, r2` (R86): a zero divisor raises `DivideByZero` with the divisor's register. -/
def execMod (r1 r2 : Reg) (s : State) : Host.Outcome State Fault Refusal :=
  if s.reg r2 = 0 then .next (s.raise (.divideByZero r2))
  else .next (s.toAcc (truncRem (s.reg r1).toInt (s.reg r2).toInt))

end Sys2Proof.Machine
end

