-- ==== Sys2Proof/Machine/Branch.lean ====
section
/-! DEFINITION. Branch: `jmp` and `jnz` (44_branch.md). A target is checked only by the next fetch (R70). -/

namespace Sys2Proof.Machine

/-- `jmp target` (R96). -/
def execJmp (target : Int) (s : State) : Host.Outcome State Fault Refusal :=
  .next (s.setReg .pc (wrap target))

/-- `jnz target, test` (R97). -/
def execJnz (target : Int) (test : Reg) (s : State) : Host.Outcome State Fault Refusal :=
  if testNonzero test s then .next (s.setReg .pc (wrap target)) else .next s.advancePc

end Sys2Proof.Machine
end

