-- ==== Sys2Proof/Machine/CallStack.lean ====
section
/-! DEFINITION. CallStack: `call`, `ret`, `push`, `pop` (42_call_stack.md), over the one stack of R93. Statements run in
the order of the rules' pseudocode, each reading the state the one before left (R14). -/

namespace Sys2Proof.Machine

/-- `call target` (R89): `sp` is incremented before its check, and stays incremented when the check fails (D13). The return
address is `pc + 1`, exact (assumption log entry 11). -/
def execCall (target : Int) (s : State) : Host.Outcome State Fault Refusal :=
  let s1 := s.setReg .sp (wrap s.nextTop)
  match stackFault s.nextTop with
  | some f => .next ((if Config.callOverflowKeepsIncrement then s1 else s).raise f)
  | none => .next ((s1.memWrite s.nextTop.toNat ((s1.reg .pc).toInt + 1)).setReg .pc (wrap target))

/-- `ret` (R90): the popped value is used verbatim as the next fetch address. -/
def execRet (s : State) : Host.Outcome State Fault Refusal :=
  match readTop s with
  | .error f => .next (s.raise f)
  | .ok v => .next (s.returnTo v)

/-- `push r` (R91): the check comes before the increment, and `x[r]` is read after `sp` is written. -/
def execPush (r : Reg) (s : State) : Host.Outcome State Fault Refusal :=
  match stackFault s.nextTop with
  | some f => .next (s.raise f)
  | none =>
    let s1 := s.setReg .sp (wrap s.nextTop)
    .next (s1.memWrite s.nextTop.toNat (s1.reg r).toInt).advancePc

/-- `pop dst` (R92): `sp` is read again after `dst` is written, and `pc` after that. -/
def execPop (dst : Reg) (s : State) : Host.Outcome State Fault Refusal :=
  match readTop s with
  | .error f => .next (s.raise f)
  | .ok v =>
    let s1 := s.setReg dst (wrap v)
    let s2 := s1.setReg .sp (wrap ((s1.reg .sp).toInt - 1))
    .next s2.advancePc

end Sys2Proof.Machine
end

