-- ==== Sys2Proof/Machine/DataMovement.lean ====
section
/-! DEFINITION. DataMovement: `mov`, `movv`, `load`, `loadr`, `store`, `storer` (40_data_movement.md). -/

namespace Sys2Proof.Machine

/-- `mov dst, src` (R78). -/
def execMov (dst src : Reg) (s : State) : Host.Outcome State Fault Refusal :=
  .next (s.setReg dst (s.reg src)).advancePc

/-- `movv dst, imm` (R79). -/
def execMovv (dst : Reg) (imm : Int) (s : State) : Host.Outcome State Fault Refusal :=
  .next (s.setReg dst (wrap imm)).advancePc

/-- `load dst, addr` (R80). -/
def execLoad (dst : Reg) (addr : Int) (s : State) : Host.Outcome State Fault Refusal :=
  .next (loadInto dst (literalAddr addr) s)

/-- `loadr dst, addrReg` (R81): the address is read before the destination is written. -/
def execLoadr (dst addrReg : Reg) (s : State) : Host.Outcome State Fault Refusal :=
  .next (loadInto dst (registerAddr addrReg s) s)

/-- `store addr, src` (R82). -/
def execStore (addr : Int) (src : Reg) (s : State) : Host.Outcome State Fault Refusal :=
  .next (storeFrom (literalAddr addr) src s)

/-- `storer addrReg, src` (R83). -/
def execStorer (addrReg src : Reg) (s : State) : Host.Outcome State Fault Refusal :=
  .next (storeFrom (registerAddr addrReg s) src s)

end Sys2Proof.Machine
end

