-- ==== Sys2Proof/Machine/Output.lean ====
section
/-! DEFINITION. Output: `out` (43_output.md). -/

namespace Sys2Proof.Machine

/-- `out r` (R94): append the register's value to the output stream. -/
def execOut (r : Reg) (s : State) : Host.Outcome State Fault Refusal :=
  .next (s.emit (s.reg r)).advancePc

end Sys2Proof.Machine
end

