-- ==== Sys2Proof/Machine/System.lean ====
section
/-! DEFINITION. System: `halt` (45_system.md). -/

namespace Sys2Proof.Machine

/-- `halt` (R98): set the stop flag and advance. The tick and the injection check of its own cycle still follow (R75). -/
def execHalt (s : State) : Host.Outcome State Fault Refusal :=
  .next (s.setReg .halt 1).advancePc

end Sys2Proof.Machine
end

