-- ==== Sys2Proof/Machine/Dispatch.lean ====
section
/-! DEFINITION. Dispatch: step 4 of the cycle for a decoded instruction (R74), one meaning per constructor. -/

namespace Sys2Proof.Machine

def exec (i : Instr) (s : State) : Host.Outcome State Fault Refusal :=
  match i with
  | .mov dst src => Sys2Proof.Machine.execMov dst src s
  | .movv dst imm => Sys2Proof.Machine.execMovv dst imm s
  | .load dst addr => Sys2Proof.Machine.execLoad dst addr s
  | .loadr dst addrReg => Sys2Proof.Machine.execLoadr dst addrReg s
  | .store addr src => Sys2Proof.Machine.execStore addr src s
  | .storer addrReg src => Sys2Proof.Machine.execStorer addrReg src s
  | .add r1 r2 => Sys2Proof.Machine.execAdd r1 r2 s
  | .sub r1 r2 => Sys2Proof.Machine.execSub r1 r2 s
  | .mod r1 r2 => Sys2Proof.Machine.execMod r1 r2 s
  | .call target => Sys2Proof.Machine.execCall target s
  | .ret => Sys2Proof.Machine.execRet s
  | .out r => Sys2Proof.Machine.execOut r s
  | .push r => Sys2Proof.Machine.execPush r s
  | .pop dst => Sys2Proof.Machine.execPop dst s
  | .jmp target => Sys2Proof.Machine.execJmp target s
  | .jnz target test => Sys2Proof.Machine.execJnz target test s
  | .halt => Sys2Proof.Machine.execHalt s

end Sys2Proof.Machine
end

