-- ==== Sys2Proof/Machine/Step.lean ====
section
/-! DEFINITION. Step: one turn of the engine's loop (30_encoding.md R69, R73): the halt check, then one cycle. -/

namespace Sys2Proof.Machine

/-- One turn of the loop. An engine in `Halted` changes nothing (R69, R122). A running engine whose halt check finds
`halt != 0` enters `Halted`; any other runs one cycle: fetch, decode, handler, tick, injection (R73). -/
def step (s : State) : Host.Outcome State Fault Refusal :=
  match s.run with
  | .halted => .next s
  | .running =>
    if haltRequested s then .next s.enterHalted
    else
      match fetchDecode s with
      | .ends f => .next (s.raise f)
      | .handlerFault f => .next (s.raise f).endOfCycle
      | .runs i =>
        match exec i s with
        | .next t => .next t.endOfCycle
        | .fault r => .fault r
        | .refused r => .refused r

/-- `s` with the instruction of a host word placed where the next step fetches (assumption log entry 3): the cell at `pc`,
after whatever a fetch needs (`Running`, `halt` 0, `pc` in the array) has been made so. From reset only that cell changes. -/
def State.withFetchWord (s : State) (nbits w : Nat) : State :=
  s.readyToFetch.placeAtPc (cellOfWord nbits w)

end Sys2Proof.Machine
end

