-- ==== Sys2Proof/Machine/Ports.lean ====
section
/-! DEFINITION. Ports: the host's interactions with the engine (60_exceptions.md R104, R123, R124; 70_reset_and_hazards.md
R128): the program image before the first cycle, and what the host reads of a state. No step uses them. -/

namespace Sys2Proof.Machine

/-- Apply a program image: each pair overwrites a whole cell, in list order, so the later of two wins (R128, D24). -/
def Memory.applyImage (m : Memory) (img : Image) : Memory :=
  match img with
  | [] => m
  | (a, c) :: rest => Memory.applyImage (Memory.set m a c) rest

/-- The state before the first halt check: reset, then the program image (R125, R130). The loader has rejected an image
with an address outside the array (R128): such an image starts no run (assumption log entry 7). -/
def boot (img : Image) : Option State :=
  if Image.wf img then some { State.reset with mem := Memory.applyImage State.reset.mem img } else none

/-- The text of the output port: each integer in decimal, with a newline after it, in execution order (R123). -/
def outputText (s : State) : List Char := s.output.flatMap (fun v => dec v.toInt ++ ['\n'])

/-- The text of a fault's kind-specific value (R102). -/
def FaultInfo.valueText : FaultInfo → List Char
  | .invalidProgramCounter => []
  | .invalidOpcode t => t
  | .invalidMemoryAccess a => dec a
  | .stackOverflow a => dec a
  | .stackUnderflow a => dec a
  | .operandParseError t => t
  | .divideByZero r => r.name
  | .unknownRegister t => t
  | .missingOperand t => t

/-- The fields of a report on the fault-report port (R102, R104). -/
structure PortReport where
  code : Nat
  kind : FaultKind
  pc : Int
  value : FaultInfo
  /-- the human-readable message, whose text is free (`Config.faultMessage`, assumption log entry 10) -/
  message : List Char
deriving DecidableEq, Repr

/-- One report as the port delivers it. -/
def FaultReport.onPort (r : FaultReport) : PortReport :=
  { code := r.info.kind.code
    kind := r.info.kind
    pc := r.pc.toInt
    value := r.info
    message := Config.faultMessage r.info.kind.code r.pc.toInt r.info.valueText }

/-- The reports delivered so far, one per fault, in the order detected (R36, R104). -/
def faultPort (s : State) : List PortReport := s.faultLog.map FaultReport.onPort

/-- The halted port: the halt check has found `halt != 0` (R124). -/
def haltedPort (s : State) : Bool := s.run == .halted

/-- The final-state read-out of the registers: (name, value) in declaration order (R29, R124). -/
def finalRegisters (s : State) : List (Token × Int) := Reg.all.map (fun r => (r.name, (s.reg r).toInt))

/-- The final-state read-out of memory: every cell in address order, untouched ones included (R124). -/
def finalCells (s : State) : List (Nat × Cell) := (List.range Config.memSize).map (fun a => (a, s.cell a))

end Sys2Proof.Machine
end

