-- ==== Sys2Proof/Safety.lean ====
section
/-! DEFINITION. Safety: the invariant of the machine, how a run ends, and the frames the statements use. -/

namespace Sys2Proof.Machine

/-! ### The invariant -/

/-- Every token held in memory is a token (R59). -/
def tokensWf (m : Memory) : Bool := m.all (fun p => Cell.wf p.2)

/-- A fault log entry means that the machine has been told to halt, and the log never holds more than two (R36, R103,
R108). -/
abbrev logWf (s : State) : Prop :=
  s.faultLog.length ≤ 2 ∧ (s.faultLog ≠ [] → s.reg .halt ≠ 0)

/-- What every step keeps: the memory list is canonical and lies in the array, it holds tokens only, the fault log is as R108
says, and an engine in `Halted` has `halt != 0` (R34). -/
abbrev State.Inv (s : State) : Prop :=
  Memory.wf s.mem = true ∧ tokensWf s.mem = true ∧ logWf s ∧ (s.run = .halted → s.reg .halt ≠ 0)

/-! ### The end of a run (R76) -/

/-- Run the loop under fuel: the final state if a halt check stops the run, none if the fuel runs out first, which counts
as a hang (R76, R140). -/
def runToHalt : Nat → State → Option State
  | 0, s => if s.run = .halted then some s else none
  | k + 1, s =>
    if s.run = .halted then some s
    else
      match step s with
      | .next t => runToHalt k t
      | .fault _ => none
      | .refused _ => none

/-- A run ended cleanly: the engine has halted and its fault log is empty (R76). -/
def endedCleanly (s : State) : Bool := s.run == .halted && s.faultLog.isEmpty

/-- A run ended by a fault (R76). -/
def endedByFault (s : State) : Bool := s.run == .halted && !s.faultLog.isEmpty

/-! ### Frames -/

/-- Every cell reads as before. -/
def SameMemory (s t : State) : Prop := ∀ a : Nat, t.cell a = s.cell a

/-- The output stream, the fault log and the run state are as before. -/
def SamePorts (s t : State) : Prop := t.output = s.output ∧ t.faultLog = s.faultLog ∧ t.run = s.run

/-- Cell `n` has the decimal token of `v` as token 0 and keeps its other tokens, and every other cell reads as before
(R41). -/
def Stored (n : Nat) (v : Int) (s t : State) : Prop :=
  t.cell n = dec v :: (s.cell n).tail ∧ ∀ a : Nat, a ≠ n → t.cell a = s.cell a

/-- `dst` has been given `v`, then `pc` has advanced by one, and nothing else has changed. With `dst = pc` the advance applies to
the value just written (R74, R77). -/
def Advanced (dst : Reg) (v : Word) (s t : State) : Prop :=
  t.reg .pc = wrap ((if dst = .pc then v else s.reg .pc).toInt + 1) ∧
  (dst ≠ .pc → t.reg dst = v) ∧
  (∀ q, q ≠ dst → q ≠ .pc → t.reg q = s.reg q) ∧
  SameMemory s t ∧ SamePorts s t

/-- The fault `f` has been raised and nothing else has changed: `halt` is 1, and the fault log ends in the report of `f` with
`pc` as it stood (R102, R103). -/
def Raised (f : FaultInfo) (s t : State) : Prop :=
  t.reg .halt = 1 ∧ (∀ q, q ≠ .halt → t.reg q = s.reg q) ∧
  SameMemory s t ∧ t.output = s.output ∧ t.run = s.run ∧
  t.faultLog = s.faultLog ++ [{ pc := s.reg .pc, info := f }]

end Sys2Proof.Machine
end

