-- ==== Sys2Proof/Certificates/Slice0/Obligations.lean ====
section
/-! DEFINITION. Obligations: the statements about the machine, from the spec's numbered rules. `Claims` holds the words they
share; the frames (`Advanced`, `Raised`, `Stored`, `SameMemory`, `SamePorts`) are in Safety.lean. -/

namespace Sys2Proof.Claims

open Sys2Proof.Machine

/-! ### Decoding, format by format (R57, R58, R60, R62, R63) -/

/-- Format `N`: no operand; further tokens are ignored. -/
def DecodesN (op : Token) (i : Instr) : Prop := ∀ rest, decodeCell (op :: rest) = .instr i

/-- Format `R`: a register; further tokens are ignored; a missing token and an unknown name have their faults. -/
def DecodesR (op : Token) (mk : Reg → Instr) : Prop :=
  (∀ t r rest, Reg.ofToken t = some r → decodeCell (op :: t :: rest) = .instr (mk r)) ∧
  decodeCell [op] = .bad (.missingOperand op) ∧
  (∀ t rest, Reg.ofToken t = none → decodeCell (op :: t :: rest) = .bad (.unknownRegister t))

/-- Format `I`: an integer literal. -/
def DecodesI (op : Token) (mk : Int → Instr) : Prop :=
  (∀ t v rest, parseInt t = some v → decodeCell (op :: t :: rest) = .instr (mk v)) ∧
  decodeCell [op] = .bad (.missingOperand op) ∧
  (∀ t rest, parseInt t = none → decodeCell (op :: t :: rest) = .bad (.operandParseError t))

/-- Format `RR`: two registers, decoded in token order; the first check that fails gives the fault. -/
def DecodesRR (op : Token) (mk : Reg → Reg → Instr) : Prop :=
  (∀ t1 t2 r1 r2 rest, Reg.ofToken t1 = some r1 → Reg.ofToken t2 = some r2 →
    decodeCell (op :: t1 :: t2 :: rest) = .instr (mk r1 r2)) ∧
  decodeCell [op] = .bad (.missingOperand op) ∧
  (∀ t1 rest, Reg.ofToken t1 = none → decodeCell (op :: t1 :: rest) = .bad (.unknownRegister t1)) ∧
  (∀ t1 r1, Reg.ofToken t1 = some r1 → decodeCell [op, t1] = .bad (.missingOperand op)) ∧
  (∀ t1 t2 r1 rest, Reg.ofToken t1 = some r1 → Reg.ofToken t2 = none →
    decodeCell (op :: t1 :: t2 :: rest) = .bad (.unknownRegister t2))

/-- Format `RI`: a register, then an integer literal. -/
def DecodesRI (op : Token) (mk : Reg → Int → Instr) : Prop :=
  (∀ t1 t2 r v rest, Reg.ofToken t1 = some r → parseInt t2 = some v →
    decodeCell (op :: t1 :: t2 :: rest) = .instr (mk r v)) ∧
  decodeCell [op] = .bad (.missingOperand op) ∧
  (∀ t1 rest, Reg.ofToken t1 = none → decodeCell (op :: t1 :: rest) = .bad (.unknownRegister t1)) ∧
  (∀ t1 r, Reg.ofToken t1 = some r → decodeCell [op, t1] = .bad (.missingOperand op)) ∧
  (∀ t1 t2 r rest, Reg.ofToken t1 = some r → parseInt t2 = none →
    decodeCell (op :: t1 :: t2 :: rest) = .bad (.operandParseError t2))

/-- Format `IR`: an integer literal, then a register. -/
def DecodesIR (op : Token) (mk : Int → Reg → Instr) : Prop :=
  (∀ t1 t2 v r rest, parseInt t1 = some v → Reg.ofToken t2 = some r →
    decodeCell (op :: t1 :: t2 :: rest) = .instr (mk v r)) ∧
  decodeCell [op] = .bad (.missingOperand op) ∧
  (∀ t1 rest, parseInt t1 = none → decodeCell (op :: t1 :: rest) = .bad (.operandParseError t1)) ∧
  (∀ t1 v, parseInt t1 = some v → decodeCell [op, t1] = .bad (.missingOperand op)) ∧
  (∀ t1 t2 v rest, parseInt t1 = some v → Reg.ofToken t2 = none →
    decodeCell (op :: t1 :: t2 :: rest) = .bad (.unknownRegister t2))

/-! ### Memory operands -/

/-- `i` loads `dst` from address `a` of `s`: the value of token 0 when the address is in the array and the token is a valid
decimal integer; otherwise the fault of the first check that fails, with nothing else changed (R80). -/
def LoadsFrom (i : Instr) (dst : Reg) (a : Int) (s : State) : Prop :=
  (∀ tok rest v, inArray a → s.cell a.toNat = tok :: rest → parseInt tok = some v →
    ∃ t, exec i s = .next t ∧ Advanced dst (wrap v) s t ∧ (wrap v).toInt = v) ∧
  (¬ inArray a → ∃ t, exec i s = .next t ∧ Raised (.invalidMemoryAccess a) s t) ∧
  (inArray a → s.cell a.toNat = [] → ∃ t, exec i s = .next t ∧ Raised (.invalidMemoryAccess a) s t) ∧
  (∀ tok rest, inArray a → s.cell a.toNat = tok :: rest → parseInt tok = none →
    ∃ t, exec i s = .next t ∧ Raised (.operandParseError tok) s t)

/-- `i` stores register `src` at address `a` of `s`: token 0 of that cell and no other byte of memory changes, and of the
registers only `pc`; an address outside the array is a fault with nothing else changed (R82). -/
def StoresTo (i : Instr) (src : Reg) (a : Int) (s : State) : Prop :=
  (inArray a → ∃ t, exec i s = .next t ∧ Stored a.toNat (s.reg src).toInt s t ∧
    t.reg .pc = wrap ((s.reg .pc).toInt + 1) ∧ (∀ q, q ≠ .pc → t.reg q = s.reg q) ∧ SamePorts s t) ∧
  (¬ inArray a → ∃ t, exec i s = .next t ∧ Raised (.invalidMemoryAccess a) s t)

/-- The faults of a stack read by `i` at the top of the stack of `s`, in the order of the checks, with nothing else changed
(R90, R92). -/
def TopReadFaults (i : Instr) (s : State) : Prop :=
  ((s.reg .sp).toInt < 0 → ∃ t, exec i s = .next t ∧ Raised (.stackUnderflow (s.reg .sp).toInt) s t) ∧
  ((Config.memSize : Int) ≤ (s.reg .sp).toInt →
    ∃ t, exec i s = .next t ∧ Raised (.stackOverflow (s.reg .sp).toInt) s t) ∧
  (inArray (s.reg .sp).toInt → s.cell (s.reg .sp).toInt.toNat = [] →
    ∃ t, exec i s = .next t ∧ Raised (.invalidMemoryAccess (s.reg .sp).toInt) s t) ∧
  (∀ tok rest, inArray (s.reg .sp).toInt → s.cell (s.reg .sp).toInt.toNat = tok :: rest → parseInt tok = none →
    ∃ t, exec i s = .next t ∧ Raised (.operandParseError tok) s t)

/-! ### Whole-machine words -/

/-- The registers an instruction may write when it does not fault (R19, R21, R22). -/
def writes : Instr → List Reg
  | .mov dst _ => [dst, .pc]
  | .movv dst _ => [dst, .pc]
  | .load dst _ => [dst, .pc]
  | .loadr dst _ => [dst, .pc]
  | .store _ _ => [.pc]
  | .storer _ _ => [.pc]
  | .add _ _ => [.acc, .pc]
  | .sub _ _ => [.acc, .pc]
  | .mod _ _ => [.acc, .pc]
  | .call _ => [.sp, .pc]
  | .ret => [.sp, .pc]
  | .out _ => [.pc]
  | .push _ => [.sp, .pc]
  | .pop dst => [dst, .sp, .pc]
  | .jmp _ => [.pc]
  | .jnz _ _ => [.pc]
  | .halt => [.halt, .pc]

/-- `pc` advanced from the value `v`. -/
def advanced (v : Word) : Word := wrap (v.toInt + 1)

/-- `pc` after the handler of an instruction that has not faulted: the table of R77, row by row. -/
def PcRule (i : Instr) (s t : State) : Prop :=
  match i with
  | .mov dst src => t.reg .pc = advanced (if dst = .pc then s.reg src else s.reg .pc)
  | .movv dst imm => t.reg .pc = advanced (if dst = .pc then wrap imm else s.reg .pc)
  | .load dst a =>
    (dst ≠ .pc → t.reg .pc = advanced (s.reg .pc)) ∧
    (dst = .pc → ∀ v, readData a s = .ok v → t.reg .pc = advanced (wrap v))
  | .loadr dst r =>
    (dst ≠ .pc → t.reg .pc = advanced (s.reg .pc)) ∧
    (dst = .pc → ∀ v, readData (s.reg r).toInt s = .ok v → t.reg .pc = advanced (wrap v))
  | .pop dst =>
    (dst ≠ .pc → t.reg .pc = advanced (s.reg .pc)) ∧
    (dst = .pc → ∀ v, readTop s = .ok v → t.reg .pc = advanced (wrap v))
  | .store _ _ | .storer _ _ | .add _ _ | .sub _ _ | .mod _ _ | .out _ | .push _ | .halt =>
    t.reg .pc = advanced (s.reg .pc)
  | .call target => t.reg .pc = wrap target
  | .ret => ∀ v, readTop s = .ok v → t.reg .pc = wrap v
  | .jmp target => t.reg .pc = wrap target
  | .jnz target test => t.reg .pc = if s.reg test ≠ 0 then wrap target else advanced (s.reg .pc)

/-- The value of a list of decimal digits, most significant first. -/
def digitsValue (ds : List Char) : Nat := ds.foldl (fun n c => 10 * n + (c.toNat - '0'.toNat)) 0

/-- The cell the last pair of an image that names address `a` assigns, or the reset cell (R127, R128). -/
def imageCell (img : Image) (a : Nat) : Cell :=
  ((img.reverse.find? (fun p => p.1 == a)).map Prod.snd).getD ["0".toList]

/-- The sign table of `mod`: dividend, divisor, result (R88). -/
def modTable : List (Int × Int × Int) :=
  [(7, 3, 1), (-7, 3, -1), (7, -3, 1), (-7, -3, -1), (6, 3, 0), (-6, 3, 0), (0, 5, 0), (0, -5, 0), (3, 7, 3),
   (-3, 7, -3), (Config.intMin, -1, 0), (Config.intMin, Config.intMax, -1), (Config.intMax, Config.intMin, Config.intMax)]

/-- The engine is about to run a cycle: the halt check finds `halt == 0` (R69). -/
def AboutToCycle (s : State) : Prop := s.run = .running ∧ s.reg .halt = 0

/-- The next step runs `out r`. -/
def RunsOut (s : State) (r : Reg) : Prop :=
  AboutToCycle s ∧ inArray (s.reg .pc).toInt ∧ decodeCell (s.cell (s.reg .pc).toInt.toNat) = .instr (.out r)

end Sys2Proof.Claims

open Sys2Proof Sys2Proof.Machine Sys2Proof.Claims

/-! ### One statement per instruction: decoding, effect, frame, faults -/

/-- R78 (with the spec's D17 for `dst = pc`): `mov` decodes as `RR`, copies the register and advances; nothing else changes. -/
def Obligations.MovCopiesRegister : Prop :=
  DecodesRR "mov".toList .mov ∧
  ∀ (dst src : Reg) (s : State), ∃ t, exec (.mov dst src) s = .next t ∧ Advanced dst (s.reg src) s t

/-- R79: `movv` decodes as `RI`, writes the literal and advances; nothing else changes. (For `dst = pc` the advance applies to the
literal.) -/
def Obligations.MovvLoadsImmediate : Prop :=
  DecodesRI "movv".toList .movv ∧
  ∀ (dst : Reg) (imm : Int) (s : State), inRange imm →
    ∃ t, exec (.movv dst imm) s = .next t ∧ Advanced dst (wrap imm) s t ∧ (wrap imm).toInt = imm

/-- R80: `load` from a literal address. -/
def Obligations.LoadReadsLiteralAddress : Prop :=
  DecodesRI "load".toList .load ∧
  ∀ (dst : Reg) (a : Int) (s : State), LoadsFrom (.load dst a) dst a s

/-- R81: `loadr` from the address a register holds, read before the destination is written. -/
def Obligations.LoadrReadsRegisterAddress : Prop :=
  DecodesRR "loadr".toList .loadr ∧
  ∀ (dst addrReg : Reg) (s : State), LoadsFrom (.loadr dst addrReg) dst (s.reg addrReg).toInt s

/-- R82: `store` to a literal address. -/
def Obligations.StoreWritesLiteralAddress : Prop :=
  DecodesIR "store".toList .store ∧
  ∀ (a : Int) (src : Reg) (s : State), StoresTo (.store a src) src a s

/-- R83: `storer` to the address a register holds. -/
def Obligations.StorerWritesRegisterAddress : Prop :=
  DecodesRR "storer".toList .storer ∧
  ∀ (addrReg src : Reg) (s : State), StoresTo (.storer addrReg src) src (s.reg addrReg).toInt s

/-- R84 (with the spec's D2, wrap on overflow): `add` writes the wrapped exact sum to `acc`. -/
def Obligations.AddWritesWrappedSum : Prop :=
  DecodesRR "add".toList .add ∧
  ∀ (r1 r2 : Reg) (s : State), ∃ t, exec (.add r1 r2) s = .next t ∧
    Advanced .acc (wrap ((s.reg r1).toInt + (s.reg r2).toInt)) s t

/-- R85 (with the spec's D2): `sub` writes the wrapped exact difference to `acc`. -/
def Obligations.SubWritesWrappedDifference : Prop :=
  DecodesRR "sub".toList .sub ∧
  ∀ (r1 r2 : Reg) (s : State), ∃ t, exec (.sub r1 r2) s = .next t ∧
    Advanced .acc (wrap ((s.reg r1).toInt - (s.reg r2).toInt)) s t

/-- R86 (with the spec's D3 and D4): `mod` writes the truncating remainder to `acc`, exactly, with the sign of the dividend and smaller than the divisor;
a zero divisor raises `DivideByZero`. -/
def Obligations.ModWritesTruncatingRemainder : Prop :=
  DecodesRR "mod".toList .mod ∧
  (∀ (r1 r2 : Reg) (s : State), s.reg r2 ≠ 0 → ∃ t v, exec (.mod r1 r2) s = .next t ∧ Advanced .acc v s t ∧
    v.toInt = (s.reg r1).toInt - (s.reg r2).toInt * (s.reg r1).toInt.tdiv (s.reg r2).toInt ∧
    v.toInt.natAbs < (s.reg r2).toInt.natAbs ∧
    (v.toInt = 0 ∨ (0 < v.toInt ↔ 0 < (s.reg r1).toInt))) ∧
  (∀ (r1 r2 : Reg) (s : State), s.reg r2 = 0 →
    ∃ t, exec (.mod r1 r2) s = .next t ∧ Raised (.divideByZero r2) s t)

/-- R89 (with the spec's D13 and D14): `call` pushes `pc + 1` and jumps. When its stack check fails, `sp` stays incremented and nothing is written. -/
def Obligations.CallPushesReturnAddress : Prop :=
  DecodesI "call".toList .call ∧
  ∀ (target : Int) (s : State),
    (inArray ((s.reg .sp).toInt + 1) → inRange target → ∃ t, exec (.call target) s = .next t ∧
      (t.reg .pc).toInt = target ∧ (t.reg .sp).toInt = (s.reg .sp).toInt + 1 ∧
      (∀ q, q ≠ .pc → q ≠ .sp → t.reg q = s.reg q) ∧
      Stored ((s.reg .sp).toInt + 1).toNat ((s.reg .pc).toInt + 1) s t ∧ SamePorts s t) ∧
    (¬ inArray ((s.reg .sp).toInt + 1) → ∃ t, exec (.call target) s = .next t ∧
      t.reg .sp = wrap ((s.reg .sp).toInt + 1) ∧ t.reg .halt = 1 ∧
      (∀ q, q ≠ .sp → q ≠ .halt → t.reg q = s.reg q) ∧ SameMemory s t ∧ t.output = s.output ∧ t.run = s.run ∧
      ((Config.memSize : Int) ≤ (s.reg .sp).toInt + 1 →
        t.faultLog = s.faultLog ++ [{ pc := s.reg .pc, info := .stackOverflow ((s.reg .sp).toInt + 1) }]) ∧
      ((s.reg .sp).toInt + 1 < 0 →
        t.faultLog = s.faultLog ++ [{ pc := s.reg .pc, info := .stackUnderflow ((s.reg .sp).toInt + 1) }]))

/-- R90 (with the spec's D14 and D15): `ret` takes the integer at the top of the stack as the next fetch address, verbatim, and lowers `sp` by one. -/
def Obligations.RetPopsProgramCounter : Prop :=
  DecodesN "ret".toList .ret ∧
  (∀ (s : State) tok rest v, inArray (s.reg .sp).toInt → s.cell (s.reg .sp).toInt.toNat = tok :: rest →
    parseInt tok = some v → ∃ t, exec .ret s = .next t ∧
      (t.reg .pc).toInt = v ∧ (t.reg .sp).toInt = (s.reg .sp).toInt - 1 ∧
      (∀ q, q ≠ .pc → q ≠ .sp → t.reg q = s.reg q) ∧ SameMemory s t ∧ SamePorts s t) ∧
  ∀ s : State, TopReadFaults .ret s

/-- R91 (with the spec's D14 and D17): `push` checks, increments `sp`, then stores the register (for `sp` itself, the incremented value). -/
def Obligations.PushStoresRegister : Prop :=
  DecodesR "push".toList .push ∧
  ∀ (r : Reg) (s : State),
    (inArray ((s.reg .sp).toInt + 1) → ∃ t, exec (.push r) s = .next t ∧
      (t.reg .sp).toInt = (s.reg .sp).toInt + 1 ∧ t.reg .pc = wrap ((s.reg .pc).toInt + 1) ∧
      (∀ q, q ≠ .pc → q ≠ .sp → t.reg q = s.reg q) ∧
      Stored ((s.reg .sp).toInt + 1).toNat
        (if r = .sp then (s.reg .sp).toInt + 1 else (s.reg r).toInt) s t ∧
      SamePorts s t) ∧
    ((Config.memSize : Int) ≤ (s.reg .sp).toInt + 1 → ∃ t, exec (.push r) s = .next t ∧
      Raised (.stackOverflow ((s.reg .sp).toInt + 1)) s t) ∧
    ((s.reg .sp).toInt + 1 < 0 → ∃ t, exec (.push r) s = .next t ∧
      Raised (.stackUnderflow ((s.reg .sp).toInt + 1)) s t)

/-- R92 (with the spec's D14, D15 and D17): `pop` writes the integer at the top of the stack to `dst`, then lowers `sp`, then advances `pc`, each reading what
the statement before left. -/
def Obligations.PopWritesDestination : Prop :=
  DecodesR "pop".toList .pop ∧
  (∀ (dst : Reg) (s : State) tok rest v, inArray (s.reg .sp).toInt →
    s.cell (s.reg .sp).toInt.toNat = tok :: rest → parseInt tok = some v → ∃ t, exec (.pop dst) s = .next t ∧
      (dst ≠ .sp → dst ≠ .pc → (t.reg dst).toInt = v) ∧
      t.reg .sp = wrap ((if dst = .sp then v else (s.reg .sp).toInt) - 1) ∧
      t.reg .pc = wrap ((if dst = .pc then v else (s.reg .pc).toInt) + 1) ∧
      (∀ q, q ≠ dst → q ≠ .sp → q ≠ .pc → t.reg q = s.reg q) ∧ SameMemory s t ∧ SamePorts s t) ∧
  ∀ (dst : Reg) (s : State), TopReadFaults (.pop dst) s

/-- R94: `out` appends the register's value to the output stream and advances; nothing else changes. -/
def Obligations.OutAppendsToOutput : Prop :=
  DecodesR "out".toList .out ∧
  ∀ (r : Reg) (s : State), ∃ t, exec (.out r) s = .next t ∧ t.output = s.output ++ [s.reg r] ∧
    t.reg .pc = wrap ((s.reg .pc).toInt + 1) ∧ (∀ q, q ≠ .pc → t.reg q = s.reg q) ∧
    SameMemory s t ∧ t.faultLog = s.faultLog ∧ t.run = s.run

/-- R96: `jmp` sets `pc` to its target, without increment; nothing else changes. -/
def Obligations.JmpSetsProgramCounter : Prop :=
  DecodesI "jmp".toList .jmp ∧
  ∀ (target : Int) (s : State), inRange target → ∃ t, exec (.jmp target) s = .next t ∧
    (t.reg .pc).toInt = target ∧ (∀ q, q ≠ .pc → t.reg q = s.reg q) ∧ SameMemory s t ∧ SamePorts s t

/-- R97: `jnz` sets `pc` to its target when the register is not zero, and advances otherwise; nothing else changes. -/
def Obligations.JnzBranchesOnNonzero : Prop :=
  DecodesIR "jnz".toList .jnz ∧
  ∀ (target : Int) (test : Reg) (s : State), inRange target → ∃ t, exec (.jnz target test) s = .next t ∧
    (s.reg test ≠ 0 → (t.reg .pc).toInt = target) ∧
    (s.reg test = 0 → t.reg .pc = wrap ((s.reg .pc).toInt + 1)) ∧
    (∀ q, q ≠ .pc → t.reg q = s.reg q) ∧ SameMemory s t ∧ SamePorts s t

/-- R98: `halt` writes 1 to `halt` and advances; nothing else changes. -/
def Obligations.HaltSetsStopFlag : Prop :=
  DecodesN "halt".toList .halt ∧
  ∀ s : State, ∃ t, exec .halt s = .next t ∧ Advanced .halt 1 s t

/-! ### Integers, names and the encoding -/

/-- R9, R18 (the spec's D1): `wrap` gives the one value of the range congruent to its argument modulo `2^W`, by the formula of R9, and leaves
every value of the range alone. -/
def Obligations.WrapIsTheCongruentValueInRange : Prop :=
  ∀ v : Int,
    (wrap v).toInt = (v - Config.intMin) % 2 ^ Config.W + Config.intMin ∧ inRange (wrap v).toInt ∧
    (∀ w : Int, inRange w → (2 ^ Config.W : Int) ∣ v - w → w = (wrap v).toInt) ∧
    (inRange v → (wrap v).toInt = v)

/-- R60 (the spec's D8): which tokens are valid decimal integers, and their values. -/
def Obligations.ParseIntAcceptsTheGrammar : Prop :=
  ∀ (t : Token) (v : Int), parseInt t = some v ↔
    inRange v ∧ ∃ sign ds : List Char, (sign = [] ∨ sign = ['+'] ∨ sign = ['-']) ∧ t = sign ++ ds ∧ ds ≠ [] ∧
      (∀ c ∈ ds, c ∈ "0123456789".toList) ∧
      v = if sign = ['-'] then -(digitsValue ds : Int) else (digitsValue ds : Int)

/-- R61 (the spec's D8): `dec` is canonical and `parseInt` reads it back; `MemWrite` and the output port write integers with it. -/
def Obligations.DecIsCanonicalAndReadsBack : Prop :=
  (∀ v : Int, inRange v → parseInt (dec v) = some v) ∧
  (∀ v : Int, v < 0 → dec v = '-' :: dec (-v)) ∧
  (∀ v : Int, 0 ≤ v → dec v ≠ [] ∧ ∀ c ∈ dec v, c ∈ "0123456789".toList) ∧
  (∀ v : Int, 0 < v → (dec v).head? ≠ some '0') ∧
  dec 0 = "0".toList ∧
  (∀ (s : State) (n : Nat) (v : Int), ((s.memWrite n v).cell n).head? = some (dec v)) ∧
  (∀ (s : State) (v : Word), outputText (s.emit v) = outputText s ++ dec v.toInt ++ ['\n'])

/-- R17, R58: the register names, exactly and case-sensitively. -/
def Obligations.RegisterTokensAreTheThirteenNames : Prop :=
  Reg.all.map Reg.name = ["a", "b", "c", "d", "e", "f", "sp", "acc", "pc", "ivec", "int", "timer", "halt"].map String.toList ∧
  (∀ r : Reg, r ∈ Reg.all) ∧
  ∀ (t : Token) (r : Reg), Reg.ofToken t = some r ↔ t = r.name

/-- R64, R65: a cell raises `InvalidOpcode` exactly when its first token is none of the 17 names; integer tokens and
register names other than `halt`, which is an opcode too, are among those. Taking token 0 `halt` as the opcode is the model's
reading of R64 against R65's "every register name" (assumption log entry 2). -/
def Obligations.OtherFirstTokensAreInvalidOpcodes : Prop :=
  (∀ (t : Token) (ts : List Token), decodeCell (t :: ts) = .bad (.invalidOpcode t) ↔
    t ∉ ["mov", "movv", "load", "loadr", "store", "storer", "add", "sub", "mod", "call", "ret", "out", "push", "pop",
      "jmp", "jnz", "halt"].map String.toList) ∧
  (∀ (t : Token) (ts : List Token) (v : Int), parseInt t = some v → decodeCell (t :: ts) = .bad (.invalidOpcode t)) ∧
  (∀ (r : Reg) (ts : List Token), r ≠ .halt → decodeCell (r.name :: ts) = .bad (.invalidOpcode r.name))

/-- Decode and encode agree, for every well-formed instruction and whatever tokens follow its operands (R56, R57, R62). -/
def Obligations.DecodeOfEncodeIsTheInstruction : Prop :=
  ∀ (i : Instr) (extra : List Token), i.wf = true → decodeCell (encode i ++ extra) = .instr i

/-- What decodes is well formed, begins with its opcode's name, and has at least the tokens its format needs (R60, R62,
R64). -/
def Obligations.DecodedInstructionsAreWellFormed : Prop :=
  ∀ (c : Cell) (i : Instr), decodeCell c = .instr i →
    i.wf = true ∧ c.head? = some i.opcode.name ∧ i.opcode.format.arity + 1 ≤ c.length

/-- Cells written out by hand from the opcode map decode to the instructions they stand for (R57, R64). -/
def Obligations.WrittenOutCellsDecode : Prop :=
  decodeCell ["mov".toList, "b".toList, "a".toList] = .instr (.mov .b .a) ∧
  decodeCell ["load".toList, "d".toList, "95".toList] = .instr (.load .d 95) ∧
  decodeCell ["store".toList, "95".toList, "c".toList] = .instr (.store 95 .c) ∧
  decodeCell ["sub".toList, "a".toList, "b".toList] = .instr (.sub .a .b) ∧
  decodeCell ["call".toList, "10".toList] = .instr (.call 10) ∧
  decodeCell ["out".toList, "acc".toList] = .instr (.out .acc) ∧
  decodeCell ["jnz".toList, "4".toList, "a".toList] = .instr (.jnz 4 .a) ∧
  decodeCell ["halt".toList, "x".toList] = .instr .halt

/-! ### Memory and arithmetic -/

/-- R41 (with the spec's D16 for an empty cell): `MemWrite` replaces the first token of one cell with the decimal token, keeps its other tokens, makes an empty cell
a one-token cell, and changes no other cell and no register. -/
def Obligations.MemWriteReplacesFirstToken : Prop :=
  ∀ (s : State) (n : Nat) (v : Int),
    (s.cell n = [] → (s.memWrite n v).cell n = [dec v]) ∧
    (∀ t ts, s.cell n = t :: ts → (s.memWrite n v).cell n = dec v :: ts) ∧
    (∀ a, a ≠ n → (s.memWrite n v).cell a = s.cell a) ∧
    (∀ q, (s.memWrite n v).reg q = s.reg q)

/-- R45: reading a value back after writing it gives the same value. -/
def Obligations.DataReadAfterWriteGivesTheValue : Prop :=
  ∀ (s : State) (a v : Int), inArray a → inRange v → readData a (s.memWrite a.toNat v) = .ok v

/-- R88 (the spec's D3, derived from R86): `mod` at every row of the sign table, and at zero. -/
def Obligations.ModSignTable : Prop :=
  (∀ (r1 r2 : Reg) (s : State), ∀ row ∈ modTable, (s.reg r1).toInt = row.1 → (s.reg r2).toInt = row.2.1 →
    ∃ t, exec (.mod r1 r2) s = .next t ∧ (t.reg .acc).toInt = row.2.2) ∧
  (∀ (r1 r2 : Reg) (s : State), (s.reg r2).toInt = 0 →
    ∃ t, exec (.mod r1 r2) s = .next t ∧ t.reg .acc = s.reg .acc ∧ t.reg .halt = 1 ∧
      t.faultLog = s.faultLog ++ [{ pc := s.reg .pc, info := .divideByZero r2 }])

/-! ### The cycle -/

/-- Every instruction and every step answers a next state: a fault is fatal to the simulated machine but not to its host (R100,
60_exceptions.md section 1). That a fault is a next state is the model's form of it (assumption log entry 4). -/
def Obligations.EveryStepAnswersANextState : Prop :=
  (∀ (i : Instr) (s : State), ∃ t, exec i s = .next t) ∧ ∀ s : State, ∃ t, step s = .next t

/-- R73: when the cell at `pc` decodes to an instruction, the step is that instruction's meaning, then the tick and the
injection check. -/
def Obligations.StepRunsTheDecodedInstruction : Prop :=
  ∀ (s t : State) (i : Instr), AboutToCycle s → inArray (s.reg .pc).toInt →
    decodeCell (s.cell (s.reg .pc).toInt.toNat) = .instr i → exec i s = .next t → step s = .next t.endOfCycle

/-- R70: fetch takes the cell at `pc`; a `pc` outside the array or an empty cell raises `InvalidProgramCounter` and ends the
cycle, without tick or injection. -/
def Obligations.FetchFaultEndsTheCycle : Prop :=
  (∀ (s : State) (tok : Token) (rest : List Token), inArray (s.reg .pc).toInt →
    s.cell (s.reg .pc).toInt.toNat = tok :: rest → fetch s = some (tok :: rest)) ∧
  (∀ s : State, AboutToCycle s → (¬ inArray (s.reg .pc).toInt ∨ s.cell (s.reg .pc).toInt.toNat = []) →
    ∃ t, step s = .next t ∧ Raised .invalidProgramCounter s t)

/-- R72: a first token that is no opcode raises `InvalidOpcode` and ends the cycle, without tick or injection; an opcode's
handler runs, so that the timer ticks. -/
def Obligations.InvalidOpcodeEndsTheCycle : Prop :=
  ∀ (s : State) (tok : Token) (rest : List Token), AboutToCycle s → inArray (s.reg .pc).toInt →
    s.cell (s.reg .pc).toInt.toNat = tok :: rest →
    ((∀ o : Opcode, o.name ≠ tok) → ∃ t, step s = .next t ∧ Raised (.invalidOpcode tok) s t) ∧
    (∀ o : Opcode, o.name = tok → ∃ u, step s = .next u.endOfCycle ∧
      ((∃ i, decodeOperands o rest = .instr i ∧ exec i s = .next u) ∨
       ∃ f, decodeOperands o rest = .bad f ∧ Raised (decodeFaultInfo f) s u))

/-- R63, R75 (the spec's D9 and D10): when an operand does not decode, the fault is raised with no other state changed, and the tick and the injection
check still run. -/
def Obligations.OperandFaultKeepsTheTick : Prop :=
  ∀ (s : State) (f : FaultInfo), AboutToCycle s → inArray (s.reg .pc).toInt →
    ((∃ t, f = .missingOperand t ∧ decodeCell (s.cell (s.reg .pc).toInt.toNat) = .bad (.missingOperand t)) ∨
     (∃ t, f = .unknownRegister t ∧ decodeCell (s.cell (s.reg .pc).toInt.toNat) = .bad (.unknownRegister t)) ∨
     (∃ t, f = .operandParseError t ∧ decodeCell (s.cell (s.reg .pc).toInt.toNat) = .bad (.operandParseError t))) →
    ∃ u, Raised f s u ∧ step s = .next u.endOfCycle

/-- R112, R114 (with the spec's D10 and D11): the end of a cycle ticks the timer, and injects exactly when `int == 1` and the ticked timer is 0. -/
def Obligations.CycleEndTicksThenInjects : Prop :=
  ∀ s : State, ∃ k : State,
    k.reg .timer = wrap ((s.reg .timer).toInt - 1) ∧ (∀ q, q ≠ .timer → k.reg q = s.reg q) ∧
    SameMemory s k ∧ SamePorts s k ∧
    ((s.reg .int).toInt = 1 ∧ k.reg .timer = 0 → s.endOfCycle = k.inject) ∧
    (¬ ((s.reg .int).toInt = 1 ∧ k.reg .timer = 0) → s.endOfCycle = k)

/-- R115 (with the spec's D14): injection pushes the current `pc`, takes `ivec` as `pc` and disarms, changing nothing else; when the stack is full
or `sp + 1` is negative it raises, with nothing else changed. -/
def Obligations.InjectionEntersTheHandler : Prop :=
  ∀ s : State,
    (inArray ((s.reg .sp).toInt + 1) →
      (s.inject.reg .sp).toInt = (s.reg .sp).toInt + 1 ∧ s.inject.reg .pc = s.reg .ivec ∧ s.inject.reg .int = 0 ∧
      (∀ q, q ≠ .sp → q ≠ .pc → q ≠ .int → s.inject.reg q = s.reg q) ∧
      Stored ((s.reg .sp).toInt + 1).toNat (s.reg .pc).toInt s s.inject ∧ SamePorts s s.inject) ∧
    ((Config.memSize : Int) ≤ (s.reg .sp).toInt + 1 →
      Raised (.stackOverflow ((s.reg .sp).toInt + 1)) s s.inject) ∧
    ((s.reg .sp).toInt + 1 < 0 → Raised (.stackUnderflow ((s.reg .sp).toInt + 1)) s s.inject)

/-- R69, R122: the halt check stops a machine with `halt != 0`, changing only the run state, and an engine in `Halted` changes
nothing, however long it is run. That a halted engine's step answers the same state is the model's form of taking no step
(assumption log entry 5). -/
def Obligations.HaltedIsTerminal : Prop :=
  (∀ s : State, s.run = .running → s.reg .halt ≠ 0 → step s = .next s.enterHalted) ∧
  (∀ s : State, (∀ q, s.enterHalted.reg q = s.reg q) ∧ SameMemory s s.enterHalted ∧
    s.enterHalted.output = s.output ∧ s.enterHalted.faultLog = s.faultLog ∧ s.enterHalted.run = .halted) ∧
  (∀ (k : Nat) (s : State), s.run = .halted → core.run k s = .next s)

/-- R107, R108: a step that logs a fault leaves `halt != 0`, adds at most two reports after those already there, and is the
last cycle: the next step enters `Halted`. -/
def Obligations.AFaultEndsTheRun : Prop :=
  ∀ s t : State, step s = .next t → t.faultLog ≠ s.faultLog →
    t.reg .halt = 1 ∧ step t = .next t.enterHalted ∧
    ∃ new, t.faultLog = s.faultLog ++ new ∧ 1 ≤ new.length ∧ new.length ≤ 2

/-- R99: once `halt` is not zero no step changes it, and a cycle that leaves it not zero, however it was written, is the
last. -/
def Obligations.HaltFlagIsNeverCleared : Prop :=
  (∀ s t : State, step s = .next t → s.reg .halt ≠ 0 → t.reg .halt = s.reg .halt) ∧
  (∀ s t : State, step s = .next t → t.reg .halt ≠ 0 → ∃ u, step t = .next u ∧ u.run = .halted ∧
    (∀ q, u.reg q = t.reg q) ∧ SameMemory t u)

/-! ### Reset and the program image -/

/-- R126, R127, R129: the state after reset. No program image sets a register, and a cell that an image does not assign stays
`["0"]`, which reads as the integer 0 and fetches as `InvalidOpcode`. -/
def Obligations.ResetState : Prop :=
  (∀ q, State.reset.reg q = 0) ∧ (∀ a, State.reset.cell a = ["0".toList]) ∧
  State.reset.output = [] ∧ State.reset.faultLog = [] ∧ State.reset.run = .running ∧
  (∀ (img : Image) (s : State), boot img = some s →
    (∀ q, s.reg q = 0) ∧ ∀ a, (∀ p ∈ img, p.1 ≠ a) → s.cell a = ["0".toList]) ∧
  (∀ (s : State) (a : Int), inArray a → s.cell a.toNat = ["0".toList] →
    readData a s = .ok 0 ∧ decodeCell (s.cell a.toNat) = .bad (.invalidOpcode "0".toList))

/-- R128 (with the spec's D16 and D24): a program image overwrites whole cells in list order, the later of two pairs wins, every other cell keeps its reset
value, and the image sets no register. Which images start a run (none with an address outside the array, every one of tokens
with its addresses in the array) is the model's reading of R128 (assumption log entry 7), and what a token is rests on entry 6. -/
def Obligations.ProgramImageIsApplied : Prop :=
  (∀ (img : Image) (s : State), boot img = some s →
    (∀ a, s.cell a = imageCell img a) ∧ (∀ q, s.reg q = 0) ∧
    s.output = [] ∧ s.faultLog = [] ∧ s.run = .running) ∧
  (∀ img : Image, (∃ p ∈ img, Config.memSize ≤ p.1) → boot img = none) ∧
  (∀ img : Image, (∀ p ∈ img, p.1 < Config.memSize ∧ Cell.wf p.2 = true) → ∃ s, boot img = some s)

/-- R130: no injection happens in the first cycle, whatever the image. After the tick that follows an instruction, or that
follows an operand that does not decode, the condition of R114 fails; so the first step ends in a fetch or dispatch fault, without
a tick, or in the ticked state of its handler. -/
def Obligations.NoInjectionInTheFirstCycle : Prop :=
  ∀ (img : Image) (s : State), boot img = some s →
    (∀ (i : Instr) (t : State), exec i s = .next t → ¬ (t.tick.reg .int = 1 ∧ t.tick.reg .timer = 0)) ∧
    (∀ f : FaultInfo, ¬ ((s.raise f).tick.reg .int = 1 ∧ (s.raise f).tick.reg .timer = 0)) ∧
    (∀ u : State, step s = .next u →
      (∃ f, u = s.raise f) ∨ ∃ h, ((∃ i, exec i s = .next h) ∨ ∃ f, h = s.raise f) ∧ u = h.tick)

/-! ### Invariants and whole-machine rules -/

/-- The state after reset meets the invariant. -/
def Obligations.ResetMeetsTheInvariant : Prop := State.reset.Inv

/-- The state before the first cycle meets the invariant, whatever the image. -/
def Obligations.BootMeetsTheInvariant : Prop := ∀ (img : Image) (s : State), boot img = some s → s.Inv

/-- Every step keeps the invariant: canonical memory inside the array, cells of tokens, at most two fault reports and only
with `halt` set, `halt` set in `Halted` (R33, R34, R36, R38, R59, R108). -/
def Obligations.StepKeepsTheInvariant : Prop := ∀ s t : State, s.Inv → step s = .next t → t.Inv

/-- R54: a step never creates an instruction: a cell that begins with an opcode after any number of steps held the same
tokens before, and a cell written by `MemWrite` fetches as `InvalidOpcode` whatever its other tokens. -/
def Obligations.OnlyTheImagePlacesInstructions : Prop :=
  (∀ (k : Nat) (s t : State), core.run k s = .next t → ∀ (a : Nat) (o : Opcode) (rest : List Token),
    t.cell a = o.name :: rest → s.cell a = o.name :: rest) ∧
  (∀ (s : State) (n : Nat) (v : Int),
    decodeCell ((s.memWrite n v).cell n) = .bad (.invalidOpcode (dec v)))

/-- R33: no step makes a cell empty. -/
def Obligations.NoStepEmptiesACell : Prop :=
  ∀ s t : State, step s = .next t → ∀ a, s.cell a ≠ [] → t.cell a ≠ []

/-- R35: the output stream is empty at reset, a step that runs `out` appends that register's integer, and every other step
leaves it alone. -/
def Obligations.OnlyOutAppendsToOutput : Prop :=
  State.reset.output = [] ∧
  ∀ s t : State, step s = .next t →
    (∀ r, RunsOut s r → t.output = s.output ++ [s.reg r]) ∧ ((∀ r, ¬ RunsOut s r) → t.output = s.output)

/-- R77: how each instruction leaves `pc`. -/
def Obligations.ProgramCounterAfterTheHandler : Prop :=
  ∀ (i : Instr) (s t : State), exec i s = .next t →
    (t.faultLog ≠ s.faultLog → t.reg .pc = s.reg .pc) ∧ (t.faultLog = s.faultLog → PcRule i s t)

/-- R19, R21, R22, R26: which registers an instruction and the end of a cycle can change. `halt` changes only in an
instruction that names it, or to 1 by a fault. -/
def Obligations.OnlyNamedRegistersChange : Prop :=
  (∀ (i : Instr) (s t : State) (q : Reg), exec i s = .next t → q ∉ writes i → q ≠ .halt → t.reg q = s.reg q) ∧
  (∀ (i : Instr) (s t : State), exec i s = .next t → .halt ∉ writes i →
    t.reg .halt = s.reg .halt ∨ (t.reg .halt = 1 ∧ t.faultLog ≠ s.faultLog)) ∧
  (∀ (s : State) (q : Reg), q ∉ [Reg.timer, Reg.sp, Reg.pc, Reg.int, Reg.halt] → s.endOfCycle.reg q = s.reg q)

/-- R93: `push`, `pop`, `ret` and injection keep `sp` in `[-1, MEM_SIZE - 1]`, and `call` too unless it faults, when it
reaches at most `MEM_SIZE`. -/
def Obligations.StackPointerStaysInBounds : Prop :=
  ∀ s : State, -1 ≤ (s.reg .sp).toInt → (s.reg .sp).toInt < (Config.memSize : Int) →
    (∀ (i : Instr) (t : State), (i = .ret ∨ (∃ r, i = .push r) ∨ ∃ dst, dst ≠ .sp ∧ i = .pop dst) →
      exec i s = .next t → -1 ≤ (t.reg .sp).toInt ∧ (t.reg .sp).toInt < (Config.memSize : Int)) ∧
    (∀ (target : Int) (t : State), exec (.call target) s = .next t →
      -1 ≤ (t.reg .sp).toInt ∧ (t.reg .sp).toInt ≤ (Config.memSize : Int) ∧
      ((t.reg .sp).toInt = (Config.memSize : Int) → t.faultLog ≠ s.faultLog)) ∧
    (-1 ≤ (s.inject.reg .sp).toInt ∧ (s.inject.reg .sp).toInt < (Config.memSize : Int))

/-! ### The stack discipline and the interrupt over several instructions -/

/-- R89, R90 (C5): a subroutine that leaves `sp` and its return cell as `call` left them returns to the cell after the `call`,
with `sp` as before the `call`. -/
def Obligations.RetReturnsAfterTheCall : Prop :=
  ∀ (s t u : State) (target : Int), inArray ((s.reg .sp).toInt + 1) → inArray (s.reg .pc).toInt →
    exec (.call target) s = .next t → u.reg .sp = t.reg .sp →
    u.cell ((s.reg .sp).toInt + 1).toNat = t.cell ((s.reg .sp).toInt + 1).toNat →
    ∃ v, exec .ret u = .next v ∧ (v.reg .pc).toInt = (s.reg .pc).toInt + 1 ∧ v.reg .sp = s.reg .sp

/-- R91, R92 (V-L1-7): `push` then `pop` of the same register restores it and `sp`; for `sp` and `pc` themselves, whose value
the pair uses, see R91 and R92. -/
def Obligations.PopAfterPushRestores : Prop :=
  ∀ (s t : State) (r : Reg), r ≠ .sp → r ≠ .pc → inArray ((s.reg .sp).toInt + 1) → exec (.push r) s = .next t →
    ∃ u, exec (.pop r) t = .next u ∧ (∀ q, q ≠ .pc → u.reg q = s.reg q) ∧ SameMemory t u

/-- R117: a handler that leaves the stack as it found it and ends with `ret` resumes the interrupted program: `pc` and `sp`
are those of the state that was interrupted. -/
def Obligations.RetResumesTheInterruptedProgram : Prop :=
  ∀ s u : State, inArray ((s.reg .sp).toInt + 1) → u.reg .sp = s.inject.reg .sp →
    u.cell ((s.reg .sp).toInt + 1).toNat = s.inject.cell ((s.reg .sp).toInt + 1).toNat →
    ∃ t, exec .ret u = .next t ∧ t.reg .pc = s.reg .pc ∧ t.reg .sp = s.reg .sp ∧
      (∀ q, q ≠ .pc → q ≠ .sp → t.reg q = u.reg q) ∧ SameMemory u t

/-- R113: with the interrupt armed, a handler that leaves `timer = n` in cycle 0, and `n - 1` further cycles whose handlers
leave `timer` and `int` alone, the injection happens at the end of the last of those cycles and of no earlier one. `σ k` is
the state before cycle `k` and `τ k` the state after its handler. -/
def Obligations.TimerCountsCyclesToTheInjection : Prop :=
  ∀ (n : Nat) (σ τ : Nat → State), 1 ≤ n → inRange (n : Int) →
    (∀ k, k < n → ∃ i, exec i (σ k) = .next (τ k)) → (∀ k, k < n → σ (k + 1) = (τ k).endOfCycle) →
    ((τ 0).reg .timer).toInt = (n : Int) → (τ 0).reg .int = 1 →
    (∀ k, 0 < k → k < n → (τ k).reg .timer = (σ k).reg .timer ∧ (τ k).reg .int = (σ k).reg .int) →
    (∀ k, k + 1 < n → σ (k + 1) = (τ k).tick ∧ ((σ (k + 1)).reg .timer).toInt = (n : Int) - 1 - (k : Int)) ∧
    σ n = (τ (n - 1)).tick.inject

/-! ### The host's interface -/

/-- R101, R102: the kind and code of each fault, and the code, kind, `pc` and value of each report on the fault-report port. -/
def Obligations.FaultReportFields : Prop :=
  FaultInfo.invalidProgramCounter.kind = .invalidProgramCounter ∧
  (∀ t, (FaultInfo.invalidOpcode t).kind = .invalidOpcode) ∧
  (∀ a, (FaultInfo.invalidMemoryAccess a).kind = .invalidMemoryAccess) ∧
  (∀ a, (FaultInfo.stackOverflow a).kind = .stackOverflow) ∧
  (∀ a, (FaultInfo.stackUnderflow a).kind = .stackUnderflow) ∧
  (∀ t, (FaultInfo.operandParseError t).kind = .operandParseError) ∧
  (∀ r, (FaultInfo.divideByZero r).kind = .divideByZero) ∧
  (∀ t, (FaultInfo.unknownRegister t).kind = .unknownRegister) ∧
  (∀ t, (FaultInfo.missingOperand t).kind = .missingOperand) ∧
  (∀ r : FaultReport, r.onPort.code = r.info.kind.code ∧ r.onPort.kind = r.info.kind ∧ r.onPort.pc = r.pc.toInt ∧
    r.onPort.value = r.info) ∧
  [FaultKind.invalidProgramCounter, .invalidOpcode, .invalidMemoryAccess, .stackOverflow, .stackUnderflow,
    .operandParseError, .divideByZero, .unknownRegister, .missingOperand].map FaultKind.code = [1, 2, 3, 4, 5, 6, 7, 8, 9] ∧
  (∀ (s : State) (f : FaultInfo), faultPort (s.raise f) =
    faultPort s ++ [FaultReport.onPort { pc := s.reg .pc, info := f }])

/-- R124: the final-state read-out: every register by name in declaration order, every cell in address order. -/
def Obligations.FinalStateReadOut : Prop :=
  ∀ s : State,
    (finalRegisters s).map Prod.fst =
      ["a", "b", "c", "d", "e", "f", "sp", "acc", "pc", "ivec", "int", "timer", "halt"].map String.toList ∧
    (∀ r : Reg, (r.name, (s.reg r).toInt) ∈ finalRegisters s) ∧
    (finalCells s).length = Config.memSize ∧
    (∀ a, a < Config.memSize → (finalCells s)[a]? = some (a, s.cell a))

/-- R76: under fuel `k` a run ends in a final state exactly when `k` steps of the loop lead to that state and the engine has
halted in it; more fuel changes nothing; the run ended cleanly when the fault log is empty, and by a fault otherwise. That a
step in `Halted` answers the same state is the model's form (assumption log entry 5). -/
def Obligations.RunsUnderFuelEndHalted : Prop :=
  (∀ (k : Nat) (s t : State), runToHalt k s = some t ↔ core.run k s = .next t ∧ t.run = .halted) ∧
  (∀ (k j : Nat) (s t : State), runToHalt k s = some t → runToHalt (k + j) s = some t) ∧
  (∀ (k : Nat) (s t : State), runToHalt k s = some t →
    (endedCleanly t = true ↔ t.faultLog = []) ∧ (endedByFault t = true ↔ t.faultLog ≠ []))
end

