-- ==== Sys2Proof/Laws/Decimal.lean ====
section
/-! SUPPORT. Laws/Decimal: integer tokens (R60, R61): what `dec` writes, `parseDecimal` reads back. -/

namespace Sys2Proof

/-! ### Digits -/

theorem digit_cases {n : Nat} (h : n < 10) :
    digitValue (Char.ofNat (48 + n)) = some n ∧ isBlank (Char.ofNat (48 + n)) = false ∧
      Char.ofNat (48 + n) ≠ '-' ∧ Char.ofNat (48 + n) ≠ '+' ∧ (n ≠ 0 → Char.ofNat (48 + n) ≠ '0') := by
  interval_cases n <;> decide

theorem parseDigits_append (n : Nat) (xs ys : List Char) :
    parseDigits n (xs ++ ys) = (parseDigits n xs).bind (fun m => parseDigits m ys) := by
  induction xs generalizing n with
  | nil => rfl
  | cons c cs ih =>
    simp only [List.cons_append, parseDigits]
    cases digitValue c with
    | none => rfl
    | some d => exact ih _

/-! ### `decDigits` -/

theorem decDigits_ne_nil (fuel n : Nat) : decDigits (fuel + 1) n ≠ [] := by
  unfold decDigits
  split <;> simp

theorem parseDigits_decDigits {fuel n : Nat} (h : n < 10 ^ fuel) : parseDigits 0 (decDigits fuel n) = some n := by
  induction fuel generalizing n with
  | zero =>
    have : n = 0 := by simpa using h
    subst this; rfl
  | succ fuel ih =>
    unfold decDigits
    by_cases hn : n < 10
    · simp [hn, parseDigits, digit_cases hn]
    · have hq : n / 10 < 10 ^ fuel := by rw [pow_succ] at h; omega
      have hr : n % 10 < 10 := by omega
      rw [if_neg hn, parseDigits_append, ih hq]
      simp only [Option.bind_some, parseDigits, (digit_cases hr).1]
      congr 1
      omega

/-- Every character of a decimal numeral is one of the ten digits. -/
theorem decDigits_digit (fuel n : Nat) : ∀ c ∈ decDigits fuel n, ∃ k, k < 10 ∧ c = Char.ofNat (48 + k) := by
  induction fuel generalizing n with
  | zero => simp [decDigits]
  | succ fuel ih =>
    unfold decDigits
    by_cases hn : n < 10
    · intro c hc
      simp only [hn, if_true, List.mem_singleton] at hc
      exact ⟨n, hn, hc⟩
    · intro c hc
      simp only [hn, if_false, List.mem_append, List.mem_singleton] at hc
      rcases hc with hc | hc
      · exact ih _ c hc
      · exact ⟨n % 10, by omega, hc⟩

/-- A positive number's numeral does not begin with a zero (R61). -/
theorem decDigits_head {fuel n : Nat} (h : n < 10 ^ fuel) (hn : n ≠ 0) : (decDigits fuel n).head? ≠ some '0' := by
  induction fuel generalizing n with
  | zero => simp [decDigits]
  | succ fuel ih =>
    unfold decDigits
    by_cases h10 : n < 10
    · simpa [h10] using (digit_cases h10).2.2.2.2 hn
    · have hq : n / 10 < 10 ^ fuel := by rw [pow_succ] at h; omega
      cases fuel with
      | zero => simp at hq; omega
      | succ fuel =>
        rw [if_neg h10, List.head?_append_of_ne_nil _ (decDigits_ne_nil fuel _)]
        exact ih hq (by omega)

theorem lt_ten_pow_log2 (n : Nat) : n < 10 ^ (Nat.log2 n + 1) :=
  Nat.lt_of_lt_of_le Nat.lt_log2_self (Nat.pow_le_pow_left (by omega) _)

/-! ### `decNat` and `dec` -/

theorem decNat_ne_nil (n : Nat) : decNat n ≠ [] := decDigits_ne_nil _ n

theorem decNat_digit (n : Nat) : ∀ c ∈ decNat n, ∃ k, k < 10 ∧ c = Char.ofNat (48 + k) := decDigits_digit _ n

theorem decNat_head {n : Nat} (hn : n ≠ 0) : (decNat n).head? ≠ some '0' := decDigits_head (lt_ten_pow_log2 n) hn

theorem parseNat_decNat (n : Nat) : parseNat (decNat n) = some n := by
  have h : parseDigits 0 (decNat n) = some n := parseDigits_decDigits (lt_ten_pow_log2 n)
  have hne := decNat_ne_nil n
  revert h hne
  cases decNat n with
  | nil => exact fun _ hne => absurd rfl hne
  | cons c cs => exact fun h _ => h

theorem parseDecimal_decNat (n : Nat) : parseDecimal (decNat n) = some (n : Int) := by
  have h := parseNat_decNat n
  have hd := decNat_digit n
  have hne := decNat_ne_nil n
  revert h hd hne
  cases decNat n with
  | nil => exact fun _ _ hne => absurd rfl hne
  | cons c cs =>
    intro h hd _
    obtain ⟨k, hk, rfl⟩ := hd c List.mem_cons_self
    obtain ⟨_, _, h1, h2, _⟩ := digit_cases hk
    simp [parseDecimal, h1, h2, h]

/-- Reading the canonical token of any integer gives the integer back. -/
theorem parseDecimal_dec (v : Int) : parseDecimal (dec v) = some v := by
  unfold dec
  by_cases hv : v < 0
  · have hb : -(v.natAbs : Int) = v := by omega
    simp only [hv, if_true, parseDecimal, parseNat_decNat, Option.map_some, hb]
  · rw [if_neg hv, parseDecimal_decNat]
    congr 1
    omega

/-- `dec` writes well-formed tokens (R59). -/
theorem dec_wf (v : Int) : Token.wf (dec v) = true := by
  have h (n : Nat) : (decNat n).all (fun c => !isBlank c) = true := by
    rw [List.all_eq_true]
    intro c hc
    obtain ⟨k, hk, rfl⟩ := decNat_digit n c hc
    simp [(digit_cases hk).2.1]
  unfold dec Token.wf
  split
  · have : isBlank '-' = false := by decide
    simp only [List.isEmpty_cons, Bool.not_false, Bool.true_and, List.all_cons, this, h]
  · have hne := decNat_ne_nil v.natAbs
    simp only [h, Bool.and_true, Bool.not_eq_true']
    simpa using hne

end Sys2Proof
end

