-- ==== Sys2Proof/Laws/Decode.lean ====
section
/-! SUPPORT. Laws/Decode: names, operand decoding, and that no integer token is an opcode (R58, R59, R63, R64). -/

namespace Sys2Proof

/-! ### Names -/

@[simp] theorem Reg.ofToken_name (r : Reg) : Reg.ofToken r.name = some r := by cases r <;> decide

theorem Reg.name_of_ofToken {t : Token} {r : Reg} (h : Reg.ofToken t = some r) : r.name = t := by
  have := List.find?_some h
  simpa using this

@[simp] theorem Opcode.ofToken_name (o : Opcode) : Opcode.ofToken o.name = some o := by cases o <;> decide

theorem Opcode.name_of_ofToken {t : Token} {o : Opcode} (h : Opcode.ofToken t = some o) : o.name = t := by
  have := List.find?_some h
  simpa using this

theorem Opcode.parseDecimal_name (o : Opcode) : parseDecimal o.name = none := by cases o <;> decide

theorem Reg.parseDecimal_name (r : Reg) : parseDecimal r.name = none := by cases r <;> decide

/-- No token that reads as a decimal integer is an opcode (R59, R64). -/
theorem Opcode.ofToken_of_parseDecimal {t : Token} {v : Int} (h : parseDecimal t = some v) : Opcode.ofToken t = none := by
  cases ho : Opcode.ofToken t with
  | none => rfl
  | some o =>
    rw [← Opcode.name_of_ofToken ho, Opcode.parseDecimal_name] at h
    cases h

/-- The canonical token of an integer is no opcode. -/
@[simp] theorem Opcode.ofToken_dec (v : Int) : Opcode.ofToken (dec v) = none :=
  Opcode.ofToken_of_parseDecimal (parseDecimal_dec v)

/-- `parseInt` accepts exactly the decimal tokens whose value is in range (R60). -/
theorem parseInt_eq_some {t : Token} {v : Int} : parseInt t = some v ↔ parseDecimal t = some v ∧ inRange v := by
  unfold parseInt
  cases parseDecimal t with
  | none => simp
  | some w =>
    show (if inRange w then some w else none) = some v ↔ some w = some v ∧ inRange v
    by_cases hw : inRange w
    · rw [if_pos hw]
      exact ⟨fun h => ⟨h, Option.some.inj h ▸ hw⟩, fun h => h.1⟩
    · rw [if_neg hw]
      exact ⟨fun h => (nomatch h), fun h => absurd ((Option.some.inj h.1).symm ▸ h.2) hw⟩

/-- A literal is well formed exactly when it is in range. -/
theorem literalWf_iff {v : Int} : literalWf v = true ↔ inRange v := decide_eq_true_iff

/-- A well-formed literal's canonical token parses to it. -/
theorem parseInt_dec_of_literalWf {v : Int} (h : literalWf v = true) : parseInt (dec v) = some v :=
  parseInt_eq_some.mpr ⟨parseDecimal_dec v, literalWf_iff.mp h⟩

/-! ### Operands -/

@[simp] theorem withReg_nil (op : Token) (k : Reg → List Token → Decoded) :
    withReg op [] k = .bad (.missingOperand op) := rfl

@[simp] theorem withReg_name (op : Token) (r : Reg) (ts : List Token) (k : Reg → List Token → Decoded) :
    withReg op (r.name :: ts) k = k r ts := by simp [withReg]

theorem withReg_some {op t : Token} {r : Reg} (ts : List Token) (k : Reg → List Token → Decoded)
    (h : Reg.ofToken t = some r) : withReg op (t :: ts) k = k r ts := by simp [withReg, h]

theorem withReg_none {op t : Token} (ts : List Token) (k : Reg → List Token → Decoded)
    (h : Reg.ofToken t = none) : withReg op (t :: ts) k = .bad (.unknownRegister t) := by simp [withReg, h]

@[simp] theorem withInt_nil (op : Token) (k : Int → List Token → Decoded) :
    withInt op [] k = .bad (.missingOperand op) := rfl

theorem withInt_some {op t : Token} {v : Int} (ts : List Token) (k : Int → List Token → Decoded)
    (h : parseInt t = some v) : withInt op (t :: ts) k = k v ts := by simp [withInt, h]

theorem withInt_none {op t : Token} (ts : List Token) (k : Int → List Token → Decoded)
    (h : parseInt t = none) : withInt op (t :: ts) k = .bad (.operandParseError t) := by simp [withInt, h]

/-- A register operand that decodes came from a token naming a register. -/
theorem withReg_instr {op : Token} {ts : List Token} {k : Reg → List Token → Decoded} {i : Instr}
    (h : withReg op ts k = .instr i) : ∃ t rest r, ts = t :: rest ∧ Reg.ofToken t = some r ∧ k r rest = .instr i := by
  cases ts with
  | nil => cases h
  | cons t rest =>
    cases ht : Reg.ofToken t with
    | none => rw [withReg_none _ _ ht] at h; cases h
    | some r => rw [withReg_some _ _ ht] at h; exact ⟨t, rest, r, rfl, ht, h⟩

/-- An integer operand that decodes came from a valid decimal token. -/
theorem withInt_instr {op : Token} {ts : List Token} {k : Int → List Token → Decoded} {i : Instr}
    (h : withInt op ts k = .instr i) : ∃ t rest v, ts = t :: rest ∧ parseInt t = some v ∧ k v rest = .instr i := by
  cases ts with
  | nil => cases h
  | cons t rest =>
    cases ht : parseInt t with
    | none => rw [withInt_none _ _ ht] at h; cases h
    | some v => rw [withInt_some _ _ ht] at h; exact ⟨t, rest, v, rfl, ht, h⟩

/-! ### Cells -/

@[simp] theorem decodeCell_nil : decodeCell [] = .bad .emptyCell := rfl

/-- Dispatch on the opcode's own name (R72). -/
@[simp] theorem decodeCell_opcode (o : Opcode) (ts : List Token) : decodeCell (o.name :: ts) = decodeOperands o ts := by
  simp [decodeCell]

theorem decodeCell_not_opcode {t : Token} (ts : List Token) (h : Opcode.ofToken t = none) :
    decodeCell (t :: ts) = .bad (.invalidOpcode t) := by
  simp [decodeCell, h]

/-- A cell whose token 0 was written by the engine holds no instruction (R54). -/
@[simp] theorem decodeCell_dec (v : Int) (ts : List Token) : decodeCell (dec v :: ts) = .bad (.invalidOpcode (dec v)) :=
  decodeCell_not_opcode ts (Opcode.ofToken_dec v)

/-- The cell of a host word is what the host's decoder decodes. -/
theorem decodeTableWord_eq_some {nbits w : Nat} {i : Instr} :
    decodeTableWord nbits w = some i ↔ decodeCell (cellOfWord nbits w) = .instr i := by
  unfold decodeTableWord
  cases decodeCell (cellOfWord nbits w) <;> simp

end Sys2Proof
end

