-- ==== Sys2Proof/Laws/State.lean ====
section
/-! SUPPORT. Laws/State: what each update of the state does to each field, so that no proof unfolds a record update. Proofs by
`(rfl)` stand in brackets on purpose: `simp` then applies these lemmas as rewrites that leave a proof term, and the kernel does
not have to compare two long chains of updates by unfolding them. -/

namespace Sys2Proof.Machine

theorem RegFile.get_set (g : RegFile) (r q : Reg) (v : Word) :
    (g.set r v).get q = if q = r then v else g.get q := by
  cases r <;> cases q <;> rfl

/-! ### `setReg` -/

theorem reg_setReg (s : State) (r q : Reg) (v : Word) :
    (s.setReg r v).reg q = if q = r then v else s.reg q :=
  RegFile.get_set s.regs r q v

@[simp] theorem reg_setReg_same (s : State) (r : Reg) (v : Word) : (s.setReg r v).reg r = v := by
  simp [reg_setReg]

@[simp] theorem reg_setReg_ne (s : State) {r q : Reg} (v : Word) (h : q ≠ r) : (s.setReg r v).reg q = s.reg q := by
  simp [reg_setReg, h]

@[simp] theorem setReg_mem (s : State) (r : Reg) (v : Word) : (s.setReg r v).mem = s.mem := (rfl)
@[simp] theorem setReg_run (s : State) (r : Reg) (v : Word) : (s.setReg r v).run = s.run := (rfl)
@[simp] theorem setReg_output (s : State) (r : Reg) (v : Word) : (s.setReg r v).output = s.output := (rfl)
@[simp] theorem setReg_faultLog (s : State) (r : Reg) (v : Word) : (s.setReg r v).faultLog = s.faultLog := (rfl)
@[simp] theorem cell_setReg (s : State) (r : Reg) (v : Word) (a : Nat) : (s.setReg r v).cell a = s.cell a := (rfl)

/-! ### `memWrite` -/

@[simp] theorem reg_memWrite (s : State) (a : Nat) (v : Int) (q : Reg) : (s.memWrite a v).reg q = s.reg q := (rfl)
@[simp] theorem memWrite_run (s : State) (a : Nat) (v : Int) : (s.memWrite a v).run = s.run := (rfl)
@[simp] theorem memWrite_output (s : State) (a : Nat) (v : Int) : (s.memWrite a v).output = s.output := (rfl)
@[simp] theorem memWrite_faultLog (s : State) (a : Nat) (v : Int) : (s.memWrite a v).faultLog = s.faultLog := (rfl)

/-! ### `emit` -/

@[simp] theorem reg_emit (s : State) (v : Word) (q : Reg) : (s.emit v).reg q = s.reg q := (rfl)
@[simp] theorem emit_mem (s : State) (v : Word) : (s.emit v).mem = s.mem := (rfl)
@[simp] theorem emit_run (s : State) (v : Word) : (s.emit v).run = s.run := (rfl)
@[simp] theorem emit_output (s : State) (v : Word) : (s.emit v).output = s.output ++ [v] := (rfl)
@[simp] theorem emit_faultLog (s : State) (v : Word) : (s.emit v).faultLog = s.faultLog := (rfl)
@[simp] theorem cell_emit (s : State) (v : Word) (a : Nat) : (s.emit v).cell a = s.cell a := (rfl)

/-! ### `raise` -/

theorem reg_raise (s : State) (f : FaultInfo) (q : Reg) :
    (s.raise f).reg q = if q = .halt then 1 else s.reg q :=
  RegFile.get_set s.regs .halt q 1

@[simp] theorem reg_raise_halt (s : State) (f : FaultInfo) : (s.raise f).reg .halt = 1 := by simp [reg_raise]

@[simp] theorem reg_raise_ne (s : State) (f : FaultInfo) {q : Reg} (h : q ≠ .halt) : (s.raise f).reg q = s.reg q := by
  simp [reg_raise, h]

@[simp] theorem raise_mem (s : State) (f : FaultInfo) : (s.raise f).mem = s.mem := (rfl)
@[simp] theorem raise_run (s : State) (f : FaultInfo) : (s.raise f).run = s.run := (rfl)
@[simp] theorem raise_output (s : State) (f : FaultInfo) : (s.raise f).output = s.output := (rfl)
@[simp] theorem raise_faultLog (s : State) (f : FaultInfo) :
    (s.raise f).faultLog = s.faultLog ++ [{ pc := s.reg .pc, info := f }] := (rfl)
@[simp] theorem cell_raise (s : State) (f : FaultInfo) (a : Nat) : (s.raise f).cell a = s.cell a := (rfl)

/-! ### `advancePc`, `tick`, `enterHalted`: one `setReg` or one field -/

theorem reg_advancePc (s : State) (q : Reg) :
    s.advancePc.reg q = if q = .pc then wrap ((s.reg .pc).toInt + 1) else s.reg q :=
  reg_setReg s .pc q _

@[simp] theorem reg_advancePc_pc (s : State) : s.advancePc.reg .pc = wrap ((s.reg .pc).toInt + 1) := by
  simp [reg_advancePc]

@[simp] theorem reg_advancePc_ne (s : State) {q : Reg} (h : q ≠ .pc) : s.advancePc.reg q = s.reg q := by
  simp [reg_advancePc, h]

@[simp] theorem advancePc_mem (s : State) : s.advancePc.mem = s.mem := (rfl)
@[simp] theorem advancePc_run (s : State) : s.advancePc.run = s.run := (rfl)
@[simp] theorem advancePc_output (s : State) : s.advancePc.output = s.output := (rfl)
@[simp] theorem advancePc_faultLog (s : State) : s.advancePc.faultLog = s.faultLog := (rfl)
@[simp] theorem cell_advancePc (s : State) (a : Nat) : s.advancePc.cell a = s.cell a := (rfl)

theorem reg_tick (s : State) (q : Reg) :
    s.tick.reg q = if q = .timer then wrap ((s.reg .timer).toInt - 1) else s.reg q :=
  reg_setReg s .timer q _

@[simp] theorem reg_tick_timer (s : State) : s.tick.reg .timer = wrap ((s.reg .timer).toInt - 1) := by simp [reg_tick]

@[simp] theorem reg_tick_ne (s : State) {q : Reg} (h : q ≠ .timer) : s.tick.reg q = s.reg q := by simp [reg_tick, h]

@[simp] theorem tick_mem (s : State) : s.tick.mem = s.mem := (rfl)
@[simp] theorem tick_run (s : State) : s.tick.run = s.run := (rfl)
@[simp] theorem tick_output (s : State) : s.tick.output = s.output := (rfl)
@[simp] theorem tick_faultLog (s : State) : s.tick.faultLog = s.faultLog := (rfl)
@[simp] theorem cell_tick (s : State) (a : Nat) : s.tick.cell a = s.cell a := (rfl)

@[simp] theorem reg_enterHalted (s : State) (q : Reg) : s.enterHalted.reg q = s.reg q := (rfl)
@[simp] theorem enterHalted_mem (s : State) : s.enterHalted.mem = s.mem := (rfl)
@[simp] theorem enterHalted_run (s : State) : s.enterHalted.run = .halted := (rfl)
@[simp] theorem enterHalted_output (s : State) : s.enterHalted.output = s.output := (rfl)
@[simp] theorem enterHalted_faultLog (s : State) : s.enterHalted.faultLog = s.faultLog := (rfl)
@[simp] theorem cell_enterHalted (s : State) (a : Nat) : s.enterHalted.cell a = s.cell a := (rfl)

/-- A running machine's registers after reset are all zero (R126). -/
@[simp] theorem reg_reset (q : Reg) : State.reset.reg q = 0 := by cases q <;> rfl

/-- Two states with the same registers, memory, run state, output and fault log are the same. -/
theorem State.ext_fields {s t : State} (hr : ∀ q, s.reg q = t.reg q) (hm : s.mem = t.mem) (hrun : s.run = t.run)
    (ho : s.output = t.output) (hf : s.faultLog = t.faultLog) : s = t := by
  have hregs : s.regs = t.regs := by
    have := hr
    rcases s with ⟨⟨⟩, _, _, _, _⟩
    rcases t with ⟨⟨⟩, _, _, _, _⟩
    simp only [RegFile.mk.injEq]
    exact ⟨hr .a, hr .b, hr .c, hr .d, hr .e, hr .f, hr .sp, hr .acc, hr .pc, hr .ivec, hr .int, hr .timer, hr .halt⟩
  cases s; cases t; simp_all

end Sys2Proof.Machine
end

