-- ==== Sys2Proof/Laws/Memory.lean ====
section
/-! SUPPORT. Laws/Memory: reading after writing, and the canonical form that every memory operation keeps. -/

namespace Sys2Proof.Machine

/-! ### Reads -/

@[simp] theorem Memory.read_nil (a : Nat) : Memory.read [] a = blankCell := rfl

theorem Memory.read_cons (b : Nat) (c : Cell) (m : Memory) (a : Nat) :
    Memory.read ((b, c) :: m) a = if b = a then c else Memory.read m a := rfl

theorem Memory.read_erase (m : Memory) (a k : Nat) :
    Memory.read (Memory.erase m a) k = if k = a then blankCell else Memory.read m k := by
  induction m with
  | nil => simp [Memory.erase]
  | cons p m ih =>
    obtain ⟨b, c⟩ := p
    by_cases hb : b = a
    · subst hb
      by_cases hk : k = b
      · subst hk; simp [Memory.erase, ih]
      · simp [Memory.erase, ih, Memory.read_cons, hk, Ne.symm hk]
    · by_cases hk : k = a
      · subst hk; simp [Memory.erase, hb, Memory.read_cons, ih]
      · simp [Memory.erase, hb, Memory.read_cons, ih, hk]

theorem Memory.read_insert (m : Memory) (a k : Nat) (c : Cell) (h : k = a → ∀ p ∈ m, p.1 ≠ a) :
    Memory.read (Memory.insert m a c) k = if k = a then c else Memory.read m k := by
  induction m with
  | nil =>
    by_cases hk : k = a
    · simp [Memory.insert, Memory.read_cons, hk]
    · simp [Memory.insert, Memory.read_cons, hk, Ne.symm hk]
  | cons p m ih =>
    obtain ⟨b, d⟩ := p
    have ih := ih (fun e q hq => h e q (List.mem_cons_of_mem _ hq))
    by_cases hk : k = a
    · subst hk
      have hb : b ≠ k := h rfl (b, d) List.mem_cons_self
      by_cases hlt : k < b
      · simp [Memory.insert, hlt, Memory.read_cons]
      · simp [Memory.insert, hlt, Memory.read_cons, hb, ih]
    · by_cases hlt : a < b
      · simp [Memory.insert, hlt, Memory.read_cons, hk, Ne.symm hk]
      · simp [Memory.insert, hlt, Memory.read_cons, ih, hk]

theorem Memory.not_listed_erase (m : Memory) (a : Nat) : ∀ p ∈ Memory.erase m a, p.1 ≠ a := by
  induction m with
  | nil => simp [Memory.erase]
  | cons p m ih =>
    obtain ⟨b, c⟩ := p
    by_cases hb : b = a
    · simpa [Memory.erase, hb] using ih
    · intro q hq
      simp only [Memory.erase, hb, if_false, List.mem_cons] at hq
      rcases hq with rfl | hq
      · exact hb
      · exact ih q hq

/-- The one law of a memory write: the written cell reads as written, every other cell as before. -/
theorem Memory.read_set (m : Memory) (a k : Nat) (c : Cell) :
    Memory.read (Memory.set m a c) k = if k = a then c else Memory.read m k := by
  unfold Memory.set
  by_cases hc : c = blankCell
  · simp [hc, Memory.read_erase]
  · rw [if_neg hc, Memory.read_insert _ _ _ _ (fun _ => Memory.not_listed_erase m a), Memory.read_erase]
    by_cases hk : k = a <;> simp [hk]

/-! ### The canonical form -/

theorem Memory.wfFrom_cons {lo b : Nat} {c : Cell} {m : Memory} :
    Memory.wfFrom lo ((b, c) :: m) = true ↔
      lo ≤ b ∧ b < Config.memSize ∧ c ≠ blankCell ∧ Memory.wfFrom (b + 1) m = true := by
  simp [Memory.wfFrom, and_assoc]

theorem Memory.wfFrom_mono {lo lo' : Nat} {m : Memory} (h : lo' ≤ lo) (hm : Memory.wfFrom lo m = true) :
    Memory.wfFrom lo' m = true := by
  cases m with
  | nil => rfl
  | cons p m =>
    obtain ⟨b, c⟩ := p
    rw [Memory.wfFrom_cons] at hm ⊢
    exact ⟨by omega, hm.2⟩

theorem Memory.wfFrom_erase {lo : Nat} {m : Memory} (a : Nat) (hm : Memory.wfFrom lo m = true) :
    Memory.wfFrom lo (Memory.erase m a) = true := by
  induction m generalizing lo with
  | nil => rfl
  | cons p m ih =>
    obtain ⟨b, c⟩ := p
    rw [Memory.wfFrom_cons] at hm
    by_cases hb : b = a
    · simp only [Memory.erase, hb, if_true]
      exact ih (Memory.wfFrom_mono (by omega) hm.2.2.2)
    · simp only [Memory.erase, hb, if_false]
      rw [Memory.wfFrom_cons]
      exact ⟨hm.1, hm.2.1, hm.2.2.1, ih hm.2.2.2⟩

theorem Memory.wfFrom_insert {lo : Nat} {m : Memory} {a : Nat} {c : Cell} (hm : Memory.wfFrom lo m = true)
    (hn : ∀ p ∈ m, p.1 ≠ a) (hlo : lo ≤ a) (ha : a < Config.memSize) (hc : c ≠ blankCell) :
    Memory.wfFrom lo (Memory.insert m a c) = true := by
  induction m generalizing lo with
  | nil => simp only [Memory.insert]; rw [Memory.wfFrom_cons]; exact ⟨hlo, ha, hc, rfl⟩
  | cons p m ih =>
    obtain ⟨b, d⟩ := p
    have hb : b ≠ a := hn (b, d) List.mem_cons_self
    rw [Memory.wfFrom_cons] at hm
    by_cases hlt : a < b
    · simp only [Memory.insert, hlt, if_true]
      rw [Memory.wfFrom_cons, Memory.wfFrom_cons]
      exact ⟨hlo, ha, hc, by omega, hm.2⟩
    · simp only [Memory.insert, hlt, if_false]
      rw [Memory.wfFrom_cons]
      exact ⟨hm.1, hm.2.1, hm.2.2.1,
        ih hm.2.2.2 (fun q hq => hn q (List.mem_cons_of_mem _ hq)) (by omega)⟩

/-- A whole-cell write inside the array keeps the canonical form. -/
theorem Memory.set_wf {m : Memory} {a : Nat} {c : Cell} (hm : Memory.wf m = true) (ha : a < Config.memSize) :
    Memory.wf (Memory.set m a c) = true := by
  unfold Memory.wf Memory.set at *
  by_cases hc : c = blankCell
  · simpa [hc] using Memory.wfFrom_erase a hm
  · rw [if_neg hc]
    exact Memory.wfFrom_insert (Memory.wfFrom_erase a hm) (Memory.not_listed_erase m a) (Nat.zero_le _) ha hc

theorem Memory.read_of_lt {lo a : Nat} {m : Memory} (hm : Memory.wfFrom lo m = true) (h : a < lo) :
    Memory.read m a = blankCell := by
  induction m generalizing lo with
  | nil => rfl
  | cons p m ih =>
    obtain ⟨b, c⟩ := p
    rw [Memory.wfFrom_cons] at hm
    rw [Memory.read_cons, if_neg (by omega), ih hm.2.2.2 (by omega)]

/-- Canonical memories that read alike are the same list. -/
theorem Memory.ext_wfFrom {lo : Nat} {m m' : Memory} (hm : Memory.wfFrom lo m = true) (hm' : Memory.wfFrom lo m' = true)
    (h : ∀ a, Memory.read m a = Memory.read m' a) : m = m' := by
  induction m generalizing lo m' with
  | nil =>
    cases m' with
    | nil => rfl
    | cons p m' =>
      obtain ⟨b, c⟩ := p
      rw [Memory.wfFrom_cons] at hm'
      have := h b
      simp [Memory.read_cons] at this
      exact absurd this.symm hm'.2.2.1
  | cons p m ih =>
    obtain ⟨b, c⟩ := p
    rw [Memory.wfFrom_cons] at hm
    cases m' with
    | nil =>
      have := h b
      simp [Memory.read_cons] at this
      exact absurd this hm.2.2.1
    | cons p' m' =>
      obtain ⟨b', c'⟩ := p'
      rw [Memory.wfFrom_cons] at hm'
      have hb : b = b' := by
        rcases Nat.lt_trichotomy b b' with hlt | heq | hlt
        · have := h b
          rw [Memory.read_cons, Memory.read_cons, if_pos rfl, if_neg (by omega),
            Memory.read_of_lt hm'.2.2.2 (by omega)] at this
          exact absurd this hm.2.2.1
        · exact heq
        · have := h b'
          rw [Memory.read_cons, Memory.read_cons, if_pos rfl, if_neg (by omega),
            Memory.read_of_lt hm.2.2.2 (by omega)] at this
          exact absurd this.symm hm'.2.2.1
      subst hb
      have hc : c = c' := by simpa [Memory.read_cons] using h b
      subst hc
      have : m = m' := ih hm.2.2.2 hm'.2.2.2 (fun a => by
        by_cases hab : a ≤ b
        · rw [Memory.read_of_lt hm.2.2.2 (by omega), Memory.read_of_lt hm'.2.2.2 (by omega)]
        · have := h a
          rwa [Memory.read_cons, Memory.read_cons, if_neg (by omega), if_neg (by omega)] at this)
      rw [this]

theorem Memory.ext_wf {m m' : Memory} (hm : Memory.wf m = true) (hm' : Memory.wf m' = true)
    (h : ∀ a, Memory.read m a = Memory.read m' a) : m = m' :=
  Memory.ext_wfFrom hm hm' h

/-! ### `MemWrite` -/

theorem replaceFirst_eq (t : Token) (c : Cell) : replaceFirst t c = t :: c.tail := by cases c <;> rfl

theorem cell_memWrite (s : State) (n : Nat) (v : Int) (a : Nat) :
    (s.memWrite n v).cell a = if a = n then dec v :: (s.cell n).tail else s.cell a := by
  unfold State.cell State.memWrite
  rw [Memory.read_set, replaceFirst_eq]
  rfl

@[simp] theorem cell_memWrite_same (s : State) (n : Nat) (v : Int) :
    (s.memWrite n v).cell n = dec v :: (s.cell n).tail := by simp [cell_memWrite]

@[simp] theorem cell_memWrite_ne (s : State) {n a : Nat} (v : Int) (h : a ≠ n) :
    (s.memWrite n v).cell a = s.cell a := by simp [cell_memWrite, h]

theorem memWrite_wf {s : State} {n : Nat} {v : Int} (hs : Memory.wf s.mem = true) (hn : n < Config.memSize) :
    Memory.wf (s.memWrite n v).mem = true :=
  Memory.set_wf hs hn

/-- Placing one whole cell at `pc` keeps the canonical form when `pc` is in the array. -/
theorem placeAtPc_wf {s : State} {c : Cell} (hs : Memory.wf s.mem = true) (hp : inArray (s.reg .pc).toInt) :
    Memory.wf (s.placeAtPc c).mem = true :=
  Memory.set_wf hs (by obtain ⟨h1, h2⟩ := hp; omega)

end Sys2Proof.Machine
end

