-- ==== Sys2Proof/Laws/Word.lean ====
section
/-! SUPPORT. Laws/Word: `wrap` and the integer of a register value (R9, R18). -/

namespace Sys2Proof

/-- Every register value lies in `[INT_MIN, INT_MAX]` (R18). -/
theorem toInt_inRange (w : Word) : inRange w.toInt := by
  have h1 := BitVec.le_toInt w
  have h2 := BitVec.toInt_lt (x := w)
  constructor <;> simp only [Config.intMin, Config.intMax] at * <;> omega

/-- Within the range, wrapping changes nothing. -/
theorem wrap_toInt {v : Int} (h : inRange v) : (wrap v).toInt = v := by
  obtain ⟨h1, h2⟩ := h
  simp only [Config.intMin, Config.intMax, Config.W] at h1 h2
  unfold wrap
  rw [BitVec.toInt_ofInt]
  simp only [Config.W]
  apply Int.bmod_eq_of_le <;> norm_num at * <;> omega

/-- A register value written back is itself. -/
@[simp] theorem wrap_of_toInt (w : Word) : wrap w.toInt = w := by simp [wrap]

/-- `wrap` is congruent to the exact value modulo `2^W` (R87). -/
theorem wrap_congr (v : Int) : (2 ^ Config.W : Int) ∣ v - (wrap v).toInt := by
  unfold wrap
  rw [BitVec.toInt_ofInt]
  have := Int.dvd_self_sub_bmod (x := v) (m := 2 ^ Config.W)
  simpa using this

end Sys2Proof
end

