-- ==== Sys2Proof/Laws/Ops.lean ====
section
/-! SUPPORT. Laws/Ops: what each shared operation can do, said once (R42, R93, R115). -/

namespace Sys2Proof.Machine

/-! ### Addresses and the stack's bounds -/

theorem inRange_of_inArray {n : Int} (h : inArray n) : inRange n := by
  obtain ⟨h1, h2⟩ := h
  simp only [Config.memSize] at h2
  constructor <;> norm_num [Config.intMin, Config.intMax, Config.W] <;> omega

theorem toNat_lt_of_inArray {n : Int} (h : inArray n) : n.toNat < Config.memSize := by
  obtain ⟨h1, h2⟩ := h
  omega

theorem stackFault_none {n : Int} : stackFault n = none ↔ inArray n := by
  unfold stackFault inArray
  by_cases h1 : (Config.memSize : Int) ≤ n
  · simp only [if_pos h1, reduceCtorEq, false_iff, not_and, not_lt]
    exact fun _ => h1
  · by_cases h2 : n < 0
    · simp only [if_neg h1, if_pos h2, reduceCtorEq, false_iff, not_and]
      exact fun h => absurd h2 (not_lt.mpr h)
    · simp only [if_neg h1, if_neg h2, true_iff]
      exact ⟨not_lt.mp h2, not_le.mp h1⟩

theorem stackFault_inArray {n : Int} (h : inArray n) : stackFault n = none := stackFault_none.mpr h

theorem stackFault_above {n : Int} (h : (Config.memSize : Int) ≤ n) : stackFault n = some (.stackOverflow n) := by
  simp only [stackFault, if_pos h]

theorem stackFault_below {n : Int} (h : n < 0) : stackFault n = some (.stackUnderflow n) := by
  have h1 : ¬ (Config.memSize : Int) ≤ n := by simp only [Config.memSize]; omega
  simp only [stackFault, if_neg h1, if_pos h]

/-! ### Reads -/

theorem cellInt_nil (a : Int) : cellInt a [] = .error (.invalidMemoryAccess a) := rfl

theorem cellInt_some {a v : Int} {t : Token} {ts : List Token} (h : parseInt t = some v) :
    cellInt a (t :: ts) = .ok v := by simp [cellInt, h]

theorem cellInt_none {a : Int} {t : Token} {ts : List Token} (h : parseInt t = none) :
    cellInt a (t :: ts) = .error (.operandParseError t) := by simp [cellInt, h]

/-- A data or stack read that succeeds found a valid decimal token in range as token 0 (R45). -/
theorem cellInt_ok {a v : Int} {c : Cell} (h : cellInt a c = .ok v) : ∃ t ts, c = t :: ts ∧ parseInt t = some v := by
  cases c with
  | nil => cases h
  | cons t ts =>
    cases ht : parseInt t with
    | none => rw [cellInt_none ht] at h; cases h
    | some w => rw [cellInt_some ht] at h; cases h; exact ⟨t, ts, rfl, ht⟩

theorem readData_inArray {a : Int} {s : State} (h : inArray a) : readData a s = cellInt a (s.cell a.toNat) := by
  simp only [readData, if_pos h]

theorem readData_outside {a : Int} {s : State} (h : ¬ inArray a) : readData a s = .error (.invalidMemoryAccess a) := by
  simp only [readData, if_neg h]

theorem readTop_inArray {s : State} (h : inArray (s.reg .sp).toInt) :
    readTop s = cellInt (s.reg .sp).toInt (s.cell (s.reg .sp).toInt.toNat) := by
  simp only [readTop, stackFault_inArray h]

theorem readTop_fault {s : State} {f : FaultInfo} (h : stackFault (s.reg .sp).toInt = some f) :
    readTop s = .error f := by
  simp only [readTop, h]

/-! ### Injection (R115) and the return (R90) -/

theorem inject_fault {s : State} {f : FaultInfo} (h : stackFault s.nextTop = some f) : s.inject = s.raise f := by
  simp only [State.inject, h]

/-- Injection on a legal stack, as the three writes of R115. -/
theorem inject_inArray {s : State} (h : inArray s.nextTop) :
    s.inject = ((((s.setReg .sp (wrap s.nextTop)).memWrite s.nextTop.toNat (s.reg .pc).toInt).setReg .pc
      (s.reg .ivec)).setReg .int 0) := by
  simp [State.inject, stackFault_inArray h]

/-- What injection does to every register on a legal stack (R115, R116). -/
theorem reg_inject {s : State} (h : inArray s.nextTop) (q : Reg) :
    s.inject.reg q =
      if q = .int then 0 else if q = .pc then s.reg .ivec else if q = .sp then wrap s.nextTop else s.reg q := by
  rw [inject_inArray h]
  simp [reg_setReg]

/-- What injection does to every cell on a legal stack (R115). -/
theorem cell_inject {s : State} (h : inArray s.nextTop) (a : Nat) :
    s.inject.cell a = if a = s.nextTop.toNat then dec (s.reg .pc).toInt :: (s.cell a).tail else s.cell a := by
  rw [inject_inArray h]
  simp only [cell_setReg, cell_memWrite]
  by_cases ha : a = s.nextTop.toNat
  · simp [ha]
  · simp [ha]

theorem inject_frame (s : State) : s.inject.output = s.output ∧ s.inject.run = s.run := by
  by_cases h : inArray s.nextTop
  · rw [inject_inArray h]; exact ⟨rfl, rfl⟩
  · cases hf : stackFault s.nextTop with
    | none => exact absurd (stackFault_none.mp hf) h
    | some f => rw [inject_fault hf]; exact ⟨rfl, rfl⟩

theorem reg_returnTo (s : State) (v : Int) (q : Reg) :
    (s.returnTo v).reg q =
      if q = .sp then wrap ((s.reg .sp).toInt - 1) else if q = .pc then wrap v else s.reg q := by
  simp [State.returnTo, reg_setReg]

end Sys2Proof.Machine
end

