-- ==== Sys2Proof/Laws/Exec.lean ====
section
/-! SUPPORT. Laws/Exec: the meanings that branch, each branch as one equation, so that no proof unfolds a meaning. -/

namespace Sys2Proof.Machine

/-! ### `mod` (R86) -/

theorem truncRem_eq_tmod (n d : Int) : truncRem n d = n.tmod d := by
  have := Int.tmod_def n d
  unfold truncRem
  omega

theorem exec_mod_zero {r1 r2 : Reg} {s : State} (h : s.reg r2 = 0) :
    exec (.mod r1 r2) s = .next (s.raise (.divideByZero r2)) := by
  simp only [exec, execMod, if_pos h]

theorem exec_mod_nonzero {r1 r2 : Reg} {s : State} (h : s.reg r2 ≠ 0) :
    exec (.mod r1 r2) s = .next (s.toAcc ((s.reg r1).toInt.tmod (s.reg r2).toInt)) := by
  simp only [exec, execMod, if_neg h, truncRem_eq_tmod]

/-! ### Data movement (R80 to R83) -/

theorem loadInto_ok {dst : Reg} {a v : Int} {s : State} (h : readData a s = .ok v) :
    loadInto dst a s = (s.setReg dst (wrap v)).advancePc := by
  simp only [loadInto, h]

theorem loadInto_error {dst : Reg} {a : Int} {s : State} {f : FaultInfo} (h : readData a s = .error f) :
    loadInto dst a s = s.raise f := by
  simp only [loadInto, h]

theorem storeFrom_inArray {a : Int} {src : Reg} {s : State} (h : inArray a) :
    storeFrom a src s = (s.memWrite a.toNat (s.reg src).toInt).advancePc := by
  simp only [storeFrom, if_pos h]

theorem storeFrom_outside {a : Int} {src : Reg} {s : State} (h : ¬ inArray a) :
    storeFrom a src s = s.raise (.invalidMemoryAccess a) := by
  simp only [storeFrom, if_neg h]

/-! ### The stack instructions (R89 to R92) -/

theorem exec_call_inArray {target : Int} {s : State} (h : inArray s.nextTop) :
    exec (.call target) s =
      .next (((s.setReg .sp (wrap s.nextTop)).memWrite s.nextTop.toNat ((s.reg .pc).toInt + 1)).setReg .pc (wrap target)) := by
  simp [exec, execCall, stackFault_inArray h]

theorem exec_call_fault {target : Int} {s : State} {f : FaultInfo} (h : stackFault s.nextTop = some f) :
    exec (.call target) s = .next ((s.setReg .sp (wrap s.nextTop)).raise f) := by
  simp [exec, execCall, h, Config.callOverflowKeepsIncrement]

theorem exec_push_inArray {r : Reg} {s : State} (h : inArray s.nextTop) :
    exec (.push r) s =
      .next ((s.setReg .sp (wrap s.nextTop)).memWrite s.nextTop.toNat
        (if r = .sp then wrap s.nextTop else s.reg r).toInt).advancePc := by
  simp only [exec, execPush, stackFault_inArray h, reg_setReg]

theorem exec_push_fault {r : Reg} {s : State} {f : FaultInfo} (h : stackFault s.nextTop = some f) :
    exec (.push r) s = .next (s.raise f) := by
  simp only [exec, execPush, h]

theorem exec_ret_ok {s : State} {v : Int} (h : readTop s = .ok v) : exec .ret s = .next (s.returnTo v) := by
  simp only [exec, execRet, h]

theorem exec_ret_error {s : State} {f : FaultInfo} (h : readTop s = .error f) : exec .ret s = .next (s.raise f) := by
  simp only [exec, execRet, h]

theorem exec_pop_ok {dst : Reg} {s : State} {v : Int} (h : readTop s = .ok v) :
    exec (.pop dst) s =
      .next ((s.setReg dst (wrap v)).setReg .sp
        (wrap ((if .sp = dst then wrap v else s.reg .sp).toInt - 1))).advancePc := by
  simp only [exec, execPop, h, reg_setReg]

theorem exec_pop_error {dst : Reg} {s : State} {f : FaultInfo} (h : readTop s = .error f) :
    exec (.pop dst) s = .next (s.raise f) := by
  simp only [exec, execPop, h]

/-! ### `jnz` (R97) -/

theorem exec_jnz_taken {target : Int} {test : Reg} {s : State} (h : s.reg test ≠ 0) :
    exec (.jnz target test) s = .next (s.setReg .pc (wrap target)) := by
  have : testNonzero test s = true := by simpa [testNonzero] using h
  simp only [exec, execJnz, this, if_true]

theorem exec_jnz_not_taken {target : Int} {test : Reg} {s : State} (h : s.reg test = 0) :
    exec (.jnz target test) s = .next s.advancePc := by
  simp [exec, execJnz, testNonzero, h]

/-! ### All instructions at once -/

/-- `Completes s i t`: instruction `i` has its whole effect on `s`, giving `t`. One constructor per instruction, two for
`jnz`. -/
inductive Completes (s : State) : Instr → State → Prop
  | mov (dst src : Reg) : Completes s (.mov dst src) (s.setReg dst (s.reg src)).advancePc
  | movv (dst : Reg) (imm : Int) : Completes s (.movv dst imm) (s.setReg dst (wrap imm)).advancePc
  | load (dst : Reg) {a v : Int} (h : readData a s = .ok v) :
      Completes s (.load dst a) (s.setReg dst (wrap v)).advancePc
  | loadr (dst : Reg) {r : Reg} {v : Int} (h : readData (s.reg r).toInt s = .ok v) :
      Completes s (.loadr dst r) (s.setReg dst (wrap v)).advancePc
  | store {a : Int} (src : Reg) (h : inArray a) :
      Completes s (.store a src) (s.memWrite a.toNat (s.reg src).toInt).advancePc
  | storer {r : Reg} (src : Reg) (h : inArray (s.reg r).toInt) :
      Completes s (.storer r src) (s.memWrite (s.reg r).toInt.toNat (s.reg src).toInt).advancePc
  | add (r1 r2 : Reg) : Completes s (.add r1 r2) (s.toAcc ((s.reg r1).toInt + (s.reg r2).toInt))
  | sub (r1 r2 : Reg) : Completes s (.sub r1 r2) (s.toAcc ((s.reg r1).toInt - (s.reg r2).toInt))
  | mod (r1 : Reg) {r2 : Reg} (h : s.reg r2 ≠ 0) :
      Completes s (.mod r1 r2) (s.toAcc ((s.reg r1).toInt.tmod (s.reg r2).toInt))
  | call (target : Int) (h : inArray s.nextTop) :
      Completes s (.call target)
        (((s.setReg .sp (wrap s.nextTop)).memWrite s.nextTop.toNat ((s.reg .pc).toInt + 1)).setReg .pc (wrap target))
  | ret {v : Int} (h : readTop s = .ok v) : Completes s .ret (s.returnTo v)
  | out (r : Reg) : Completes s (.out r) (s.emit (s.reg r)).advancePc
  | push (r : Reg) (h : inArray s.nextTop) :
      Completes s (.push r)
        ((s.setReg .sp (wrap s.nextTop)).memWrite s.nextTop.toNat
          (if r = .sp then wrap s.nextTop else s.reg r).toInt).advancePc
  | pop (dst : Reg) {v : Int} (h : readTop s = .ok v) :
      Completes s (.pop dst)
        ((s.setReg dst (wrap v)).setReg .sp
          (wrap ((if .sp = dst then wrap v else s.reg .sp).toInt - 1))).advancePc
  | jmp (target : Int) : Completes s (.jmp target) (s.setReg .pc (wrap target))
  | jnz_taken (target : Int) {test : Reg} (h : s.reg test ≠ 0) :
      Completes s (.jnz target test) (s.setReg .pc (wrap target))
  | jnz_not_taken (target : Int) {test : Reg} (h : s.reg test = 0) : Completes s (.jnz target test) s.advancePc
  | halt : Completes s .halt (s.setReg .halt 1).advancePc

/-- What one instruction can do, faults included: it completes, or it raises one fault in the state it started from, or it
is a `call` whose stack check fails after `sp` was incremented. -/
theorem exec_cases {i : Instr} {s t : State} (h : exec i s = .next t) :
    Completes s i t ∨ (∃ f, t = s.raise f) ∨
      ∃ target f, i = .call target ∧ stackFault s.nextTop = some f ∧ t = (s.setReg .sp (wrap s.nextTop)).raise f := by
  have load {dst : Reg} {a : Int} (P : Prop) (ht : loadInto dst a s = t)
      (hp : ∀ v, readData a s = .ok v → t = (s.setReg dst (wrap v)).advancePc → P) : P ∨ ∃ f, t = s.raise f := by
    cases hr : readData a s with
    | ok v => exact .inl (hp v hr (by rw [← ht, loadInto_ok hr]))
    | error f => exact .inr ⟨f, by rw [← ht, loadInto_error hr]⟩
  have store {src : Reg} {a : Int} (P : Prop) (ht : storeFrom a src s = t)
      (hp : inArray a → t = (s.memWrite a.toNat (s.reg src).toInt).advancePc → P) : P ∨ ∃ f, t = s.raise f := by
    by_cases ha : inArray a
    · exact .inl (hp ha (by rw [← ht, storeFrom_inArray ha]))
    · exact .inr ⟨_, by rw [← ht, storeFrom_outside ha]⟩
  cases i with
  | mov dst src => cases h; exact .inl (.mov dst src)
  | movv dst imm => cases h; exact .inl (.movv dst imm)
  | load dst a =>
    exact (load (Completes s (.load dst a) t) (by cases h; rfl) (fun v hv ht => ht ▸ .load dst hv)).imp_right .inl
  | loadr dst r =>
    exact (load (Completes s (.loadr dst r) t) (by cases h; rfl) (fun v hv ht => ht ▸ .loadr dst hv)).imp_right .inl
  | store a src =>
    exact (store (Completes s (.store a src) t) (by cases h; rfl) (fun ha ht => ht ▸ .store src ha)).imp_right .inl
  | storer r src =>
    exact (store (Completes s (.storer r src) t) (by cases h; rfl) (fun ha ht => ht ▸ .storer src ha)).imp_right .inl
  | add r1 r2 => cases h; exact .inl (.add r1 r2)
  | sub r1 r2 => cases h; exact .inl (.sub r1 r2)
  | mod r1 r2 =>
    by_cases hz : s.reg r2 = 0
    · rw [exec_mod_zero hz] at h; cases h; exact .inr (.inl ⟨_, rfl⟩)
    · rw [exec_mod_nonzero hz] at h; cases h; exact .inl (.mod r1 hz)
  | call target =>
    cases hf : stackFault s.nextTop with
    | none =>
      have hn := stackFault_none.mp hf
      rw [exec_call_inArray hn] at h; cases h; exact .inl (.call target hn)
    | some f => rw [exec_call_fault hf] at h; cases h; exact .inr (.inr ⟨target, f, rfl, rfl, rfl⟩)
  | ret =>
    cases hr : readTop s with
    | ok v => rw [exec_ret_ok hr] at h; cases h; exact .inl (.ret hr)
    | error f => rw [exec_ret_error hr] at h; cases h; exact .inr (.inl ⟨f, rfl⟩)
  | out r => cases h; exact .inl (.out r)
  | push r =>
    cases hf : stackFault s.nextTop with
    | none =>
      have hn := stackFault_none.mp hf
      rw [exec_push_inArray hn] at h; cases h; exact .inl (.push r hn)
    | some f => rw [exec_push_fault hf] at h; cases h; exact .inr (.inl ⟨f, rfl⟩)
  | pop dst =>
    cases hr : readTop s with
    | ok v => rw [exec_pop_ok hr] at h; cases h; exact .inl (.pop dst hr)
    | error f => rw [exec_pop_error hr] at h; cases h; exact .inr (.inl ⟨f, rfl⟩)
  | jmp target => cases h; exact .inl (.jmp target)
  | jnz target test =>
    by_cases hz : s.reg test = 0
    · rw [exec_jnz_not_taken hz] at h; cases h; exact .inl (.jnz_not_taken target hz)
    · rw [exec_jnz_taken hz] at h; cases h; exact .inl (.jnz_taken target hz)
  | halt => cases h; exact .inl .halt

end Sys2Proof.Machine
end

