-- ==== Sys2Proof/Laws/Moves.lean ====
section
/-! SUPPORT. Laws/Moves: every instruction, and every cycle, is a sequence of primitive updates. A property that
they keep is kept by every step, without a case analysis over the instructions. -/

namespace Sys2Proof.Machine

/-- `t` comes from `s` by register writes, `MemWrite`s inside the array, emits, raised faults and entering `Halted`. -/
inductive Moves (s : State) : State → Prop
  | refl : Moves s s
  | setReg {t : State} (h : Moves s t) (r : Reg) (v : Word) : Moves s (t.setReg r v)
  | memWrite {t : State} (h : Moves s t) {a : Nat} (v : Int) (ha : a < Config.memSize) : Moves s (t.memWrite a v)
  | emit {t : State} (h : Moves s t) (v : Word) : Moves s (t.emit v)
  | raise {t : State} (h : Moves s t) (f : FaultInfo) : Moves s (t.raise f)
  | enterHalted {t : State} (h : Moves s t) : Moves s t.enterHalted

theorem Moves.trans {s t u : State} (h : Moves s t) (h' : Moves t u) : Moves s u := by
  induction h' with
  | refl => exact h
  | setReg _ r v ih => exact ih.setReg r v
  | memWrite _ v ha ih => exact ih.memWrite v ha
  | emit _ v ih => exact ih.emit v
  | raise _ f ih => exact ih.raise f
  | enterHalted _ ih => exact ih.enterHalted

theorem Moves.advancePc {s t : State} (h : Moves s t) : Moves s t.advancePc := h.setReg .pc _

theorem Moves.tick {s t : State} (h : Moves s t) : Moves s t.tick := h.setReg .timer _

theorem Moves.inject {s t : State} (h : Moves s t) : Moves s t.inject := by
  by_cases hn : inArray t.nextTop
  · rw [inject_inArray hn]
    exact (((h.setReg .sp _).memWrite _ (toNat_lt_of_inArray hn)).setReg .pc _).setReg .int 0
  · cases hf : stackFault t.nextTop with
    | none => exact absurd (stackFault_none.mp hf) hn
    | some f => rw [inject_fault hf]; exact h.raise f

theorem Moves.endOfCycle {s t : State} (h : Moves s t) : Moves s t.endOfCycle := by
  unfold State.endOfCycle
  split
  · exact h.tick.inject
  · exact h.tick

/-- What an instruction can do, in the primitive updates. -/
theorem exec_moves {i : Instr} {s t : State} (h : exec i s = .next t) : Moves s t := by
  rcases exec_cases h with hc | ⟨f, rfl⟩ | ⟨_, f, -, -, rfl⟩
  · cases hc with
    | mov dst src => exact (Moves.refl.setReg _ _).advancePc
    | movv dst imm => exact (Moves.refl.setReg _ _).advancePc
    | load dst hv => exact (Moves.refl.setReg _ _).advancePc
    | loadr dst hv => exact (Moves.refl.setReg _ _).advancePc
    | store src ha => exact (Moves.refl.memWrite _ (toNat_lt_of_inArray ha)).advancePc
    | storer src ha => exact (Moves.refl.memWrite _ (toNat_lt_of_inArray ha)).advancePc
    | add r1 r2 => exact (Moves.refl.setReg _ _).advancePc
    | sub r1 r2 => exact (Moves.refl.setReg _ _).advancePc
    | mod r1 hz => exact (Moves.refl.setReg _ _).advancePc
    | call target hn => exact ((Moves.refl.setReg _ _).memWrite _ (toNat_lt_of_inArray hn)).setReg _ _
    | ret hv => exact (Moves.refl.setReg _ _).setReg _ _
    | out r => exact (Moves.refl.emit _).advancePc
    | push r hn => exact ((Moves.refl.setReg _ _).memWrite _ (toNat_lt_of_inArray hn)).advancePc
    | pop dst hv => exact ((Moves.refl.setReg _ _).setReg _ _).advancePc
    | jmp target => exact Moves.refl.setReg _ _
    | jnz_taken target hz => exact Moves.refl.setReg _ _
    | jnz_not_taken target hz => exact Moves.refl.advancePc
    | halt => exact (Moves.refl.setReg _ _).advancePc
  · exact Moves.refl.raise f
  · exact (Moves.refl.setReg _ _).raise f

end Sys2Proof.Machine
end

