-- ==== Sys2Proof/Laws/PerInstr.lean ====
section
/-! SUPPORT. Laws/PerInstr: one family, per constructor: every instruction is encoded in tokens (R59), the first of them its
opcode's name. -/

namespace Sys2Proof.Laws

theorem reg_name_wf (r : Reg) : Token.wf r.name = true := by cases r <;> decide

theorem opcode_name_wf (o : Opcode) : Token.wf o.name = true := by cases o <;> decide

/-- The encoding of the instruction is a cell of tokens, its operand tokens as many as its format needs (R59, R62). -/
def EncodeTokens.Statement (i : Instr) : Prop :=
  Cell.wf (encode i) = true ∧ (operandTokens i).length = i.opcode.format.arity

namespace EncodeTokens

theorem mov (dst src : Reg) : Statement (.mov dst src) := by
  simp [Statement, Cell.wf, encode, operandTokens, reg_name_wf, opcode_name_wf, Instr.opcode, Opcode.format, Format.arity]

theorem movv (dst : Reg) (imm : Int) : Statement (.movv dst imm) := by
  simp [Statement, Cell.wf, encode, operandTokens, reg_name_wf, opcode_name_wf, dec_wf, Instr.opcode, Opcode.format, Format.arity]

theorem load (dst : Reg) (addr : Int) : Statement (.load dst addr) := by
  simp [Statement, Cell.wf, encode, operandTokens, reg_name_wf, opcode_name_wf, dec_wf, Instr.opcode, Opcode.format, Format.arity]

theorem loadr (dst addrReg : Reg) : Statement (.loadr dst addrReg) := by
  simp [Statement, Cell.wf, encode, operandTokens, reg_name_wf, opcode_name_wf, Instr.opcode, Opcode.format, Format.arity]

theorem store (addr : Int) (src : Reg) : Statement (.store addr src) := by
  simp [Statement, Cell.wf, encode, operandTokens, reg_name_wf, opcode_name_wf, dec_wf, Instr.opcode, Opcode.format, Format.arity]

theorem storer (addrReg src : Reg) : Statement (.storer addrReg src) := by
  simp [Statement, Cell.wf, encode, operandTokens, reg_name_wf, opcode_name_wf, Instr.opcode, Opcode.format, Format.arity]

theorem add (r1 r2 : Reg) : Statement (.add r1 r2) := by
  simp [Statement, Cell.wf, encode, operandTokens, reg_name_wf, opcode_name_wf, Instr.opcode, Opcode.format, Format.arity]

theorem sub (r1 r2 : Reg) : Statement (.sub r1 r2) := by
  simp [Statement, Cell.wf, encode, operandTokens, reg_name_wf, opcode_name_wf, Instr.opcode, Opcode.format, Format.arity]

theorem mod (r1 r2 : Reg) : Statement (.mod r1 r2) := by
  simp [Statement, Cell.wf, encode, operandTokens, reg_name_wf, opcode_name_wf, Instr.opcode, Opcode.format, Format.arity]

theorem call (target : Int) : Statement (.call target) := by
  simp [Statement, Cell.wf, encode, operandTokens, opcode_name_wf, dec_wf, Instr.opcode, Opcode.format, Format.arity]

theorem ret : Statement .ret := by
  simp [Statement, Cell.wf, encode, operandTokens, opcode_name_wf, Instr.opcode, Opcode.format, Format.arity]

theorem out (r : Reg) : Statement (.out r) := by
  simp [Statement, Cell.wf, encode, operandTokens, reg_name_wf, opcode_name_wf, Instr.opcode, Opcode.format, Format.arity]

theorem push (r : Reg) : Statement (.push r) := by
  simp [Statement, Cell.wf, encode, operandTokens, reg_name_wf, opcode_name_wf, Instr.opcode, Opcode.format, Format.arity]

theorem pop (dst : Reg) : Statement (.pop dst) := by
  simp [Statement, Cell.wf, encode, operandTokens, reg_name_wf, opcode_name_wf, Instr.opcode, Opcode.format, Format.arity]

theorem jmp (target : Int) : Statement (.jmp target) := by
  simp [Statement, Cell.wf, encode, operandTokens, opcode_name_wf, dec_wf, Instr.opcode, Opcode.format, Format.arity]

theorem jnz (target : Int) (test : Reg) : Statement (.jnz target test) := by
  simp [Statement, Cell.wf, encode, operandTokens, reg_name_wf, opcode_name_wf, dec_wf, Instr.opcode, Opcode.format, Format.arity]

theorem halt : Statement .halt := by
  simp [Statement, Cell.wf, encode, operandTokens, opcode_name_wf, Instr.opcode, Opcode.format, Format.arity]

end EncodeTokens

end Sys2Proof.Laws
end

