-- ==== Sys2Proof/Laws/Step.lean ====
section
/-! SUPPORT. Laws/Step: what one step can do (R69, R73, R75), said once. -/

namespace Sys2Proof.Machine

@[simp] theorem haltRequested_iff {s : State} : haltRequested s = true ↔ s.reg .halt ≠ 0 := by simp [haltRequested]

theorem haltRequested_false {s : State} : haltRequested s = false ↔ s.reg .halt = 0 := by simp [haltRequested]

@[simp] theorem injectionDue_iff {s : State} : injectionDue s = true ↔ s.reg .int = 1 ∧ s.reg .timer = 0 := by
  simp [injectionDue, armed, due]

/-! ### The end of a cycle -/

theorem endOfCycle_due {s : State} (hi : s.tick.reg .int = 1) (ht : s.tick.reg .timer = 0) :
    s.endOfCycle = s.tick.inject := if_pos (injectionDue_iff.mpr ⟨hi, ht⟩)

theorem endOfCycle_not_due {s : State} (h : ¬ (s.tick.reg .int = 1 ∧ s.tick.reg .timer = 0)) : s.endOfCycle = s.tick :=
  if_neg (fun hd => h (injectionDue_iff.mp hd))

/-! ### The halt check -/

theorem step_halted {s : State} (h : s.run = .halted) : step s = .next s := by simp [step, h]

theorem step_enterHalted {s : State} (hr : s.run = .running) (hh : s.reg .halt ≠ 0) :
    step s = .next s.enterHalted := by
  simp [step, hr, haltRequested_iff.mpr hh]

/-! ### One cycle -/

theorem step_ends {s : State} {f : FaultInfo} (hr : s.run = .running) (hh : s.reg .halt = 0)
    (hf : fetchDecode s = .ends f) : step s = .next (s.raise f) := by
  simp [step, hr, haltRequested_false.mpr hh, hf]

theorem step_handlerFault {s : State} {f : FaultInfo} (hr : s.run = .running) (hh : s.reg .halt = 0)
    (hf : fetchDecode s = .handlerFault f) : step s = .next (s.raise f).endOfCycle := by
  simp [step, hr, haltRequested_false.mpr hh, hf]

theorem step_runs {s t : State} {i : Instr} (hr : s.run = .running) (hh : s.reg .halt = 0)
    (hf : fetchDecode s = .runs i) (he : exec i s = .next t) : step s = .next t.endOfCycle := by
  simp [step, hr, haltRequested_false.mpr hh, hf, he]

/-- If a step answers a next state, one of these five things happened. -/
theorem step_cases {s t : State} (h : step s = .next t) :
    (s.run = .halted ∧ t = s) ∨
    (s.run = .running ∧ s.reg .halt ≠ 0 ∧ t = s.enterHalted) ∨
    (s.run = .running ∧ s.reg .halt = 0 ∧ ∃ f, fetchDecode s = .ends f ∧ t = s.raise f) ∨
    (s.run = .running ∧ s.reg .halt = 0 ∧ ∃ f, fetchDecode s = .handlerFault f ∧ t = (s.raise f).endOfCycle) ∨
    (s.run = .running ∧ s.reg .halt = 0 ∧
      ∃ i u, fetchDecode s = .runs i ∧ exec i s = .next u ∧ t = u.endOfCycle) := by
  cases hr : s.run with
  | halted =>
    rw [step_halted hr] at h
    exact .inl ⟨rfl, by cases h; rfl⟩
  | running =>
    refine .inr ?_
    by_cases hh : s.reg .halt = 0
    · cases hf : fetchDecode s with
      | ends f =>
        rw [step_ends hr hh hf] at h
        exact .inr (.inl ⟨rfl, hh, f, rfl, by cases h; rfl⟩)
      | handlerFault f =>
        rw [step_handlerFault hr hh hf] at h
        exact .inr (.inr (.inl ⟨rfl, hh, f, rfl, by cases h; rfl⟩))
      | runs i =>
        cases he : exec i s with
        | next u =>
          rw [step_runs hr hh hf he] at h
          exact .inr (.inr (.inr ⟨rfl, hh, i, u, rfl, he, by cases h; rfl⟩))
        | fault r => cases r
        | refused r => simp [step, hr, haltRequested_false.mpr hh, hf, he] at h
    · rw [step_enterHalted hr hh] at h
      exact .inl ⟨rfl, hh, by cases h; rfl⟩

/-- What one step can do, in the primitive updates. -/
theorem step_moves {s t : State} (h : step s = .next t) : Moves s t := by
  obtain ⟨-, rfl⟩ | ⟨-, -, rfl⟩ | ⟨-, -, f, -, rfl⟩ | ⟨-, -, f, -, rfl⟩ | ⟨-, -, i, u, -, he, rfl⟩ := step_cases h
  · exact .refl
  · exact Moves.refl.enterHalted
  · exact Moves.refl.raise f
  · exact (Moves.refl.raise f).endOfCycle
  · exact (exec_moves he).endOfCycle

/-! ### Fetch -/

theorem fetch_outside {s : State} (h : ¬ inArray (s.reg .pc).toInt) : fetch s = none := by simp only [fetch, if_neg h]

theorem fetch_empty {s : State} (h : s.cell (s.reg .pc).toInt.toNat = []) : fetch s = none := by
  unfold fetch
  split
  · simp [h]
  · rfl

theorem fetch_cell {s : State} {t : Token} {ts : List Token} (h : inArray (s.reg .pc).toInt)
    (hc : s.cell (s.reg .pc).toInt.toNat = t :: ts) : fetch s = some (t :: ts) := by
  simp only [fetch, if_pos h, hc]

/-- A cell in the array that decodes to an instruction is fetched and run. -/
theorem fetchDecode_runs {s : State} {i : Instr} (h : inArray (s.reg .pc).toInt)
    (hc : decodeCell (s.cell (s.reg .pc).toInt.toNat) = .instr i) : fetchDecode s = .runs i := by
  cases hcell : s.cell (s.reg .pc).toInt.toNat with
  | nil => rw [hcell] at hc; cases hc
  | cons t ts =>
    rw [hcell] at hc
    simp only [fetchDecode, fetch_cell h hcell, hc]

end Sys2Proof.Machine
end

