-- ==== Sys2Proof/Laws/Run.lean ====
section
/-! SUPPORT. Laws/Run: several steps through the host's `Core.run`. -/

namespace Sys2Proof.Machine

@[simp] theorem core_run_zero (s : State) : core.run 0 s = .next s := rfl

/-- One more step in front. -/
theorem core_run_succ {s t : State} (k : Nat) (h : step s = .next t) : core.run (k + 1) s = core.run k t := by
  have hs : core.step s = Host.Outcome.next t := h
  simp only [Host.Core.run, hs]

/-- A property that every step keeps is kept by every run. -/
theorem core_run_induction {P : State → Prop} (hstep : ∀ {s t : State}, P s → step s = .next t → P t)
    {k : Nat} {s t : State} (hs : P s) (h : core.run k s = .next t) : P t := by
  induction k generalizing s with
  | zero => cases h; exact hs
  | succ k ih =>
    cases hst : step s with
    | next u => rw [core_run_succ k hst] at h; exact ih (hstep hs hst) h
    | fault r => cases r
    | refused r =>
      have hc : core.step s = Host.Outcome.refused r := hst
      simp only [Host.Core.run, hc] at h
      cases h

end Sys2Proof.Machine
end

