-- ==== Sys2Proof/Tests/Slice0.lean ====
section
/-! SUPPORT. Tests: ill-formed terms that WellFormed refuses, one decoding of every constructor from tokens written out by hand,
single steps from the vectors of 95_test_vectors.md (named in the comments), and a witness for the hypotheses of every
statement of Obligations.lean. Expected values are the spec's. -/

namespace Sys2Proof.Tests

open Sys2Proof Sys2Proof.Machine Sys2Proof.Claims

/-! ### Helpers -/

/-- The next state of an outcome. -/
def after : Host.Outcome State Fault Refusal → Option State
  | .next t => some t
  | .fault _ => none
  | .refused _ => none

/-- The tokens of a cell. -/
def toks (ws : List String) : Cell := ws.map String.toList

/-- The reset state with some registers set and some cells listed. -/
def st (rs : List (Reg × Int)) (m : List (Nat × List String)) : State :=
  rs.foldl (fun s p => s.setReg p.1 (wrap p.2)) { State.reset with mem := m.map (fun p => (p.1, toks p.2)) }

/-- The state after an instruction's meaning. -/
def ran (i : Instr) (s : State) : State := (after (exec i s)).getD s

/-- The state after one step. -/
def stepped (s : State) : State := (after (step s)).getD s

/-- Registers of a state, as integers. -/
def regsOf (s : State) (rs : List Reg) : List Int := rs.map (fun r => (s.reg r).toInt)

/-- The faults logged. -/
def faultsOf (s : State) : List FaultInfo := s.faultLog.map FaultReport.info

/-! ### WellFormed refuses ill-formed terms -/

theorem test_wf_movv : Instr.wf (.movv .a 2147483648) = false ∧ Instr.wf (.movv .a 2147483647) = true := by decide
theorem test_wf_load : Instr.wf (.load .a (-2147483649)) = false ∧ Instr.wf (.load .a (-2147483648)) = true := by decide
theorem test_wf_store : Instr.wf (.store 2147483648 .a) = false := by decide
theorem test_wf_call : Instr.wf (.call 2147483648) = false := by decide
theorem test_wf_jmp : Instr.wf (.jmp (-2147483649)) = false := by decide
theorem test_wf_jnz : Instr.wf (.jnz 2147483648 .a) = false := by decide
theorem test_wf_token_empty : Token.wf [] = false := by decide
theorem test_wf_token_blank : Token.wf "a b".toList = false ∧ Token.wf "a\t".toList = false ∧ Token.wf "ab".toList = true := by
  decide
theorem test_wf_cell : Cell.wf (toks ["mov", ""]) = false ∧ Cell.wf [] = true := by decide
theorem test_wf_image_address : Image.wf [(100, toks ["1"])] = false ∧ Image.wf [(99, toks ["1"])] = true := by decide
theorem test_wf_image_token : Image.wf [(0, toks [" "])] = false := by decide
theorem test_wf_memory_unsorted : Memory.wf [(5, toks ["1"]), (4, toks ["1"])] = false := by decide
theorem test_wf_memory_repeat : Memory.wf [(5, toks ["1"]), (5, toks ["2"])] = false := by decide
theorem test_wf_memory_blank : Memory.wf [(5, toks ["0"])] = false := by decide
theorem test_wf_memory_outside : Memory.wf [(100, toks ["1"])] = false ∧ Memory.wf [(99, toks ["1"])] = true := by decide

/-! ### Decoding: one cell for every constructor, written out from the opcode map of R64 -/

theorem test_decode_mov : decodeCell (toks ["mov", "b", "a"]) = .instr (.mov .b .a) := by decide
theorem test_decode_movv : decodeCell (toks ["movv", "timer", "-2147483648"]) = .instr (.movv .timer (-2147483648)) := by decide
theorem test_decode_load : decodeCell (toks ["load", "d", "95"]) = .instr (.load .d 95) := by decide
theorem test_decode_loadr : decodeCell (toks ["loadr", "e", "sp"]) = .instr (.loadr .e .sp) := by decide
theorem test_decode_store : decodeCell (toks ["store", "95", "c"]) = .instr (.store 95 .c) := by decide
theorem test_decode_storer : decodeCell (toks ["storer", "b", "acc"]) = .instr (.storer .b .acc) := by decide
theorem test_decode_add : decodeCell (toks ["add", "a", "b"]) = .instr (.add .a .b) := by decide
theorem test_decode_sub : decodeCell (toks ["sub", "f", "ivec"]) = .instr (.sub .f .ivec) := by decide
theorem test_decode_mod : decodeCell (toks ["mod", "b", "c"]) = .instr (.mod .b .c) := by decide
theorem test_decode_call : decodeCell (toks ["call", "+10"]) = .instr (.call 10) := by decide
theorem test_decode_ret : decodeCell (toks ["ret"]) = .instr .ret := by decide
theorem test_decode_out : decodeCell (toks ["out", "pc"]) = .instr (.out .pc) := by decide
theorem test_decode_push : decodeCell (toks ["push", "int"]) = .instr (.push .int) := by decide
theorem test_decode_pop : decodeCell (toks ["pop", "halt"]) = .instr (.pop .halt) := by decide
theorem test_decode_jmp : decodeCell (toks ["jmp", "-0"]) = .instr (.jmp 0) := by decide
theorem test_decode_jnz : decodeCell (toks ["jnz", "007", "a"]) = .instr (.jnz 7 .a) := by decide
theorem test_decode_halt : decodeCell (toks ["halt", "now"]) = .instr .halt := by decide

/-- V-DM-6, V-DM-10 to V-DM-13, V-BR-9 to V-BR-11, V-CY-3, V-CY-4: which check fails. -/
theorem test_decode_faults :
    decodeCell (toks ["movv", "a", "2147483648"]) = .bad (.operandParseError "2147483648".toList) ∧
    decodeCell (toks ["movv", "a", "12abc"]) = .bad (.operandParseError "12abc".toList) ∧
    decodeCell (toks ["movv", "A", "5"]) = .bad (.unknownRegister "A".toList) ∧
    decodeCell (toks ["movv", "q", "zz"]) = .bad (.unknownRegister "q".toList) ∧
    decodeCell (toks ["movv", "a"]) = .bad (.missingOperand "movv".toList) ∧
    decodeCell (toks ["jnz", "x", "a"]) = .bad (.operandParseError "x".toList) ∧
    decodeCell (toks ["jnz", "4", "q"]) = .bad (.unknownRegister "q".toList) ∧
    decodeCell (toks ["jnz", "4"]) = .bad (.missingOperand "jnz".toList) ∧
    decodeCell (toks ["nop"]) = .bad (.invalidOpcode "nop".toList) ∧
    decodeCell (toks ["Halt"]) = .bad (.invalidOpcode "Halt".toList) ∧
    decodeCell [] = .bad .emptyCell := by decide

/-- The integer grammar of R60: signs without digits, two signs, and a fraction are no integers. -/
theorem test_parse_rejects : (["", "+", "-", "+-1", "1.0", "0x1", "a"].map (fun w => parseInt w.toList)) =
    [none, none, none, none, none, none, none] := by decide

/-- The ASCII text "ret" as a host word, its first character in bits 7 to 0. -/
theorem test_host_word : decodeTableWord 24 0x746572 = some .ret ∧ decodeTableWord 24 0x747572 = none := by decide

/-- From reset, the instruction of a host word is the first that runs. -/
theorem test_host_word_runs : step (State.reset.withFetchWord 32 0x746C6168) =
    .next (ran .halt (State.reset.withFetchWord 32 0x746C6168)).endOfCycle := by rfl

/-! ### Single instructions, from the vectors of 95_test_vectors.md part 2 -/

/-- V-DM-1 -/
theorem test_mov : regsOf (ran (.mov .b .a) (st [(.a, 4), (.pc, 10)] [])) [.a, .b, .pc] = [4, 4, 11] := by decide
/-- V-DM-3 -/
theorem test_mov_pc : regsOf (ran (.mov .pc .a) (st [(.a, 20), (.pc, 3)] [])) [.pc] = [21] := by decide
/-- V-DM-5 -/
theorem test_movv : regsOf (ran (.movv .a (-2147483648)) (st [] [])) [.a, .pc] = [-2147483648, 1] := by decide
/-- V-DM-16 -/
theorem test_load : regsOf (ran (.load .a 20) (st [] [(20, ["7", "a", "5"])])) [.a, .pc] = [7, 1] := by decide
/-- V-DM-17 to V-DM-20 -/
theorem test_load_faults :
    ([100, -1, 3, 40].map (fun a => faultsOf (ran (.load .a a) (st [] [(3, ["movv", "a", "5"]), (40, [])])))) =
      [[.invalidMemoryAccess 100], [.invalidMemoryAccess (-1)], [.operandParseError "movv".toList],
       [.invalidMemoryAccess 40]] := by decide
/-- V-DM-24 -/
theorem test_loadr_same : regsOf (ran (.loadr .a .a) (st [(.a, 95)] [(95, ["8"])])) [.a] = [8] := by decide
/-- V-DM-25 -/
theorem test_loadr_pc : faultsOf (ran (.loadr .a .pc) (st [] [(0, ["loadr", "a", "pc"])])) =
    [.operandParseError "loadr".toList] := by decide
/-- V-DM-29 -/
theorem test_store : (ran (.store 5 .a) (st [(.a, -1)] [(5, ["add", "a", "b"])])).mem = [(5, toks ["-1", "a", "b"])] := by decide
/-- V-DM-30: an empty cell; storing 0 into it makes the cell what an unlisted one holds. -/
theorem test_store_empty : (ran (.store 40 .a) (st [(.a, 3)] [(40, [])])).mem = [(40, toks ["3"])] ∧
    (ran (.store 40 .b) (st [(.a, 3)] [(40, [])])).mem = [] := by decide
/-- V-DM-34 -/
theorem test_storer_same : (ran (.storer .a .a) (st [(.a, 70)] [])).mem = [(70, toks ["70"])] := by decide
/-- V-DM-35 -/
theorem test_storer_fault : faultsOf (ran (.storer .b .a) (st [(.b, -5)] [])) = [.invalidMemoryAccess (-5)] := by decide
/-- V-AR-2 -/
theorem test_add_wraps : regsOf (ran (.add .a .b) (st [(.a, 2147483647), (.b, 1)] [])) [.acc] = [-2147483648] := by decide
/-- V-AR-4 -/
theorem test_add_acc : regsOf (ran (.add .acc .b) (st [(.acc, 10), (.b, 1)] [])) [.acc, .pc] = [11, 1] := by decide
/-- V-AR-6 -/
theorem test_sub_order : regsOf (ran (.sub .a .b) (st [(.a, 1), (.b, 3)] [])) [.acc] = [-2] := by decide
/-- V-AR-8 -/
theorem test_sub_wraps : regsOf (ran (.sub .a .b) (st [(.b, -2147483648)] [])) [.acc] = [-2147483648] := by decide
/-- V-AR-10, V-AR-11, V-AR-13 -/
theorem test_mod_signs : ([(-7, 3), (7, -3), (-2147483648, -1)].map
    (fun p => regsOf (ran (.mod .a .b) (st [(.a, p.1), (.b, p.2)] [])) [.acc])) = [[-1], [1], [0]] := by decide
/-- V-AR-14 -/
theorem test_mod_zero : regsOf (ran (.mod .a .b) (st [(.a, 5), (.acc, 9)] [])) [.acc, .pc, .halt] = [9, 0, 1] := by decide
/-- V-ST-1 -/
theorem test_call : ran (.call 10) (st [(.pc, 3), (.sp, 81)] []) = st [(.pc, 10), (.sp, 82)] [(82, ["4"])] := by decide
/-- V-ST-2, V-ST-4: `sp` stays incremented. -/
theorem test_call_faults : ([99, -5].map (fun sp => (regsOf (ran (.call 10) (st [(.pc, 3), (.sp, sp)] [])) [.sp, .pc, .halt],
    faultsOf (ran (.call 10) (st [(.pc, 3), (.sp, sp)] []))))) =
    [([100, 3, 1], [.stackOverflow 100]), ([-4, 3, 1], [.stackUnderflow (-4)])] := by decide
/-- V-ST-6, V-ST-11 -/
theorem test_ret : regsOf (ran .ret (st [(.sp, 82)] [(82, ["4"])])) [.pc, .sp] = [4, 81] ∧
    regsOf (ran .ret (st [(.sp, 20)] [(20, ["-3"])])) [.pc, .sp] = [-3, 19] := by decide
/-- V-ST-7 to V-ST-10 -/
theorem test_ret_faults : ([-1, 100, 40, 5].map (fun sp => faultsOf (ran .ret (st [(.sp, sp)] [(5, ["halt"]), (40, [])])))) =
    [[.stackUnderflow (-1)], [.stackOverflow 100], [.invalidMemoryAccess 40], [.operandParseError "halt".toList]] := by decide
/-- V-ST-15, V-ST-17 -/
theorem test_push : ran (.push .sp) (st [(.sp, 80)] []) = st [(.sp, 81), (.pc, 1)] [(81, ["81"])] ∧
    ran (.push .a) (st [(.a, 4)] [(1, ["movv", "b", "2"])]) = st [(.a, 4), (.sp, 1), (.pc, 1)] [(1, ["4", "b", "2"])] := by decide
/-- V-ST-13, V-ST-14: `sp` is unchanged. -/
theorem test_push_faults : ([99, -5].map (fun sp => (regsOf (ran (.push .a) (st [(.sp, sp)] [])) [.sp, .pc],
    faultsOf (ran (.push .a) (st [(.sp, sp)] []))))) =
    [([99, 0], [.stackOverflow 100]), ([-5, 0], [.stackUnderflow (-4)])] := by decide
/-- V-ST-19, V-ST-20 -/
theorem test_pop_sp_pc : regsOf (ran (.pop .sp) (st [(.sp, 81)] [(81, ["50"])])) [.sp] = [49] ∧
    regsOf (ran (.pop .pc) (st [(.sp, 81)] [(81, ["20"])])) [.pc, .sp] = [21, 80] := by decide
/-- V-ST-21, V-ST-22 -/
theorem test_pop_faults : ([-1, 150].map (fun sp => faultsOf (ran (.pop .a) (st [(.sp, sp)] [])))) =
    [[.stackUnderflow (-1)], [.stackOverflow 150]] := by decide
/-- V-OU-2 -/
theorem test_out : outputText (ran (.out .a) (st [(.a, -12)] [])) = "-12\n".toList := by decide
/-- V-OU-4: the tick follows. -/
theorem test_out_timer : let t := stepped (st [(.timer, 3)] [(0, ["out", "timer"])])
    outputText t = "3\n".toList ∧ regsOf t [.timer, .pc] = [2, 1] := by decide
/-- V-BR-3 -/
theorem test_jmp : regsOf (ran (.jmp (-1)) (st [(.pc, 5)] [])) [.pc] = [-1] := by decide
/-- V-BR-6, V-BR-7 -/
theorem test_jnz : ([0, -1].map (fun a => regsOf (ran (.jnz 4 .a) (st [(.a, a), (.pc, 8)] [])) [.pc])) = [[9], [4]] := by decide
/-- V-SY-1 -/
theorem test_halt : regsOf (ran .halt (st [(.pc, 4)] [])) [.halt, .pc] = [1, 5] := by decide
/-- V-SY-5: the injection of a `halt`'s own cycle. -/
theorem test_halt_then_injection :
    stepped (st [(.pc, 4), (.sp, 80), (.ivec, 50), (.int, 1), (.timer, 1)] [(4, ["halt"])]) =
      st [(.pc, 50), (.sp, 81), (.ivec, 50), (.halt, 1)] [(4, ["halt"]), (81, ["5"])] := by decide

/-! ### Cycles -/

/-- V-CY-1, V-CY-2: a fetch fault does not tick. -/
theorem test_fetch_fault : ([100, 5].map (fun pc => (regsOf (stepped (st [(.pc, pc), (.timer, -1)] [(5, [])])) [.timer, .halt],
    faultsOf (stepped (st [(.pc, pc), (.timer, -1)] [(5, [])]))))) =
    [([-1, 1], [.invalidProgramCounter]), ([-1, 1], [.invalidProgramCounter])] := by decide
/-- V-L1-3 (a): an unassigned cell. -/
theorem test_unassigned_cell : (stepped State.reset).faultLog = [{ pc := 0, info := .invalidOpcode "0".toList }] ∧
    regsOf (stepped State.reset) [.timer, .halt] = [0, 1] := by decide
/-- V-CY-5: a handler fault and an injection fault in one cycle. -/
theorem test_two_faults :
    let t := stepped (st [(.pc, 4), (.sp, 99), (.ivec, 50), (.int, 1), (.timer, 1)] [(4, ["call", "10"])])
    t.faultLog = [{ pc := 4, info := .stackOverflow 100 }, { pc := 4, info := .stackOverflow 101 }] ∧
    regsOf t [.sp, .pc, .int, .timer, .halt] = [100, 4, 1, 0, 1] := by decide
/-- V-CY-6: an injection after a handler fault. -/
theorem test_injection_after_fault :
    let t := stepped (st [(.pc, 4), (.sp, 80), (.ivec, 50), (.int, 1), (.timer, 1)] [(4, ["mod", "a", "b"])])
    t.cell 81 = toks ["4"] ∧ faultsOf t = [.divideByZero .b] ∧ regsOf t [.sp, .pc, .int, .halt] = [81, 50, 0, 1] := by decide
/-- V-CY-7: `int = 2` does not arm. -/
theorem test_masked : regsOf (stepped (st [(.ivec, 50), (.int, 2), (.timer, 1)] [(0, ["movv", "a", "1"])])) [.pc, .timer] =
    [1, 0] := by decide
/-- V-CY-10: the timer wraps. -/
theorem test_tick_wraps : regsOf (st [(.timer, -2147483648)] []).tick [.timer] = [2147483647] := by decide
/-- V-L1-2, the image of reading (a): the looping cycle diverts. -/
theorem test_injection : stepped (st [(.pc, 3), (.ivec, 50), (.int, 1), (.timer, 1)] [(1, ["movv", "int", "1"]), (3, ["jmp", "3"])]) =
    st [(.pc, 50), (.sp, 1), (.ivec, 50)] [(1, ["3", "int", "1"]), (3, ["jmp", "3"])] := by decide

/-! ### Witnesses: for each statement with hypotheses, values that meet all of them together

The name after `witness_` is the statement's. Where a clause of a statement is about an address, a stack pointer or a literal, the
values at both ends of its range are given. -/

/-- Operand tokens for `DecodesR`, `DecodesI`, `DecodesRR`, `DecodesRI` and `DecodesIR`, accepted and refused. -/
theorem witness_operand_tokens :
    Reg.ofToken "a".toList = some .a ∧ Reg.ofToken "halt".toList = some .halt ∧ Reg.ofToken "A".toList = none ∧
    parseInt "-2147483648".toList = some (-2147483648) ∧ parseInt "2147483647".toList = some 2147483647 ∧
    parseInt "2147483648".toList = none := by decide

/-- Memory with a data cell at each end, an empty cell and an instruction cell. -/
def mixed : List (Nat × List String) := [(0, ["7", "x"]), (40, []), (41, ["movv", "a", "5"]), (99, ["-3"])]

theorem witness_MovvLoadsImmediate : inRange (-2147483648) ∧ inRange 2147483647 := by decide

theorem witness_LoadReadsLiteralAddress_value :
    (inArray 0 ∧ (st [] mixed).cell (0 : Int).toNat = "7".toList :: ["x".toList] ∧ parseInt "7".toList = some 7) ∧
    (inArray 99 ∧ (st [] mixed).cell (99 : Int).toNat = "-3".toList :: [] ∧ parseInt "-3".toList = some (-3)) := by decide
theorem witness_LoadReadsLiteralAddress_outside : ¬ inArray (-1) ∧ ¬ inArray 100 := by decide
theorem witness_LoadReadsLiteralAddress_empty : inArray 40 ∧ (st [] mixed).cell (40 : Int).toNat = [] := by decide
theorem witness_LoadReadsLiteralAddress_parse :
    inArray 41 ∧ (st [] mixed).cell (41 : Int).toNat = "movv".toList :: toks ["a", "5"] ∧ parseInt "movv".toList = none := by decide

theorem witness_LoadrReadsRegisterAddress_value :
    ([0, 99].map (fun a => decide (inArray ((st [(.b, a)] mixed).reg .b).toInt))) = [true, true] ∧
    (st [(.b, 99)] mixed).cell ((st [(.b, 99)] mixed).reg .b).toInt.toNat = "-3".toList :: [] ∧
    parseInt "-3".toList = some (-3) := by decide
theorem witness_LoadrReadsRegisterAddress_faults :
    ¬ inArray ((st [(.b, -1)] mixed).reg .b).toInt ∧ ¬ inArray ((st [(.b, 100)] mixed).reg .b).toInt ∧
    (inArray ((st [(.b, 40)] mixed).reg .b).toInt ∧ (st [(.b, 40)] mixed).cell ((st [(.b, 40)] mixed).reg .b).toInt.toNat = []) ∧
    (inArray ((st [(.b, 41)] mixed).reg .b).toInt ∧
      (st [(.b, 41)] mixed).cell ((st [(.b, 41)] mixed).reg .b).toInt.toNat = "movv".toList :: toks ["a", "5"]) := by decide

theorem witness_StoreWritesLiteralAddress : inArray 0 ∧ inArray 99 ∧ ¬ inArray (-1) ∧ ¬ inArray 100 := by decide
theorem witness_StorerWritesRegisterAddress :
    inArray ((st [(.b, 0)] []).reg .b).toInt ∧ inArray ((st [(.b, 99)] []).reg .b).toInt ∧
    ¬ inArray ((st [(.b, -1)] []).reg .b).toInt ∧ ¬ inArray ((st [(.b, 100)] []).reg .b).toInt := by decide

theorem witness_ModWritesTruncatingRemainder : (st [(.b, -1)] []).reg .b ≠ 0 ∧ (st [(.a, 5)] []).reg .b = 0 := by decide

theorem witness_CallPushesReturnAddress :
    (inArray (((st [(.sp, -1)] []).reg .sp).toInt + 1) ∧ inRange (-2147483648)) ∧
    (inArray (((st [(.sp, 98)] []).reg .sp).toInt + 1) ∧ inRange 2147483647) ∧
    (¬ inArray (((st [(.sp, 99)] []).reg .sp).toInt + 1) ∧
      (Config.memSize : Int) ≤ ((st [(.sp, 99)] []).reg .sp).toInt + 1) ∧
    (¬ inArray (((st [(.sp, -2)] []).reg .sp).toInt + 1) ∧ ((st [(.sp, -2)] []).reg .sp).toInt + 1 < 0) := by decide

/-- A read of the top of the stack, for `ret` and `pop`. -/
theorem witness_RetPopsProgramCounter_value :
    (inArray ((st [] mixed).reg .sp).toInt ∧ (st [] mixed).cell ((st [] mixed).reg .sp).toInt.toNat = "7".toList :: ["x".toList] ∧
      parseInt "7".toList = some 7) ∧
    (inArray ((st [(.sp, 99)] mixed).reg .sp).toInt ∧
      (st [(.sp, 99)] mixed).cell ((st [(.sp, 99)] mixed).reg .sp).toInt.toNat = "-3".toList :: [] ∧
      parseInt "-3".toList = some (-3)) := by decide
theorem witness_RetPopsProgramCounter_faults :
    ((st [(.sp, -1)] mixed).reg .sp).toInt < 0 ∧ (Config.memSize : Int) ≤ ((st [(.sp, 100)] mixed).reg .sp).toInt ∧
    (inArray ((st [(.sp, 40)] mixed).reg .sp).toInt ∧
      (st [(.sp, 40)] mixed).cell ((st [(.sp, 40)] mixed).reg .sp).toInt.toNat = []) ∧
    (inArray ((st [(.sp, 41)] mixed).reg .sp).toInt ∧
      (st [(.sp, 41)] mixed).cell ((st [(.sp, 41)] mixed).reg .sp).toInt.toNat = "movv".toList :: toks ["a", "5"] ∧
      parseInt "movv".toList = none) := by decide

/-- The hypotheses of `PopWritesDestination` are those of `RetPopsProgramCounter`; its clauses about `dst` are met by each of
`b`, `sp` and `pc`. -/
theorem witness_PopWritesDestination :
    (Reg.b ≠ .sp ∧ Reg.b ≠ .pc) ∧
    inArray ((st [(.sp, 99)] mixed).reg .sp).toInt ∧
    (st [(.sp, 99)] mixed).cell ((st [(.sp, 99)] mixed).reg .sp).toInt.toNat = "-3".toList :: [] ∧
    parseInt "-3".toList = some (-3) := by decide

theorem witness_PushStoresRegister :
    inArray (((st [(.sp, -1)] []).reg .sp).toInt + 1) ∧ inArray (((st [(.sp, 98)] []).reg .sp).toInt + 1) ∧
    (Config.memSize : Int) ≤ ((st [(.sp, 99)] []).reg .sp).toInt + 1 ∧ ((st [(.sp, -2)] []).reg .sp).toInt + 1 < 0 := by decide

theorem witness_JmpSetsProgramCounter : inRange (-2147483648) ∧ inRange 2147483647 := by decide
theorem witness_JnzBranchesOnNonzero :
    inRange 4 ∧ (st [(.a, -1)] []).reg .a ≠ 0 ∧ (st [(.a, 0)] []).reg .a = 0 := by decide

theorem witness_WrapIsTheCongruentValueInRange :
    (inRange (-2147483648) ∧ (2 ^ Config.W : Int) ∣ 2147483648 - (-2147483648)) ∧ inRange 2147483647 := by decide
theorem witness_DecIsCanonicalAndReadsBack :
    inRange (-2147483648) ∧ (-2147483648 : Int) < 0 ∧ (0 : Int) ≤ 0 ∧ (0 : Int) < 1 := by decide
theorem witness_OtherFirstTokensAreInvalidOpcodes : parseInt "0".toList = some 0 ∧ Reg.timer ≠ .halt := by decide
theorem witness_DecodeOfEncodeIsTheInstruction :
    Instr.wf (.jnz (-2147483648) .halt) = true ∧ Instr.wf (.movv .a 2147483647) = true := by decide
theorem witness_DecodedInstructionsAreWellFormed : decodeCell (toks ["pop", "sp", "x"]) = .instr (.pop .sp) := by decide

theorem witness_MemWriteReplacesFirstToken :
    (st [] mixed).cell 40 = [] ∧ (st [] mixed).cell 0 = "7".toList :: ["x".toList] ∧ (99 : Nat) ≠ 0 := by decide
theorem witness_DataReadAfterWriteGivesTheValue : inArray 0 ∧ inArray 99 ∧ inRange (-2147483648) := by decide
theorem witness_ModSignTable :
    modTable.all (fun row => decide (((st [(.a, row.1), (.b, row.2.1)] []).reg .a).toInt = row.1 ∧
      ((st [(.a, row.1), (.b, row.2.1)] []).reg .b).toInt = row.2.1)) = true ∧
    ((st [(.a, 5)] []).reg .b).toInt = 0 := by decide

/-- A program at `pc = 3`: an instruction, with an invalid opcode, a bad operand, an empty cell and a data cell beside it. -/
def small : List (Nat × List String) :=
  [(3, ["movv", "a", "5"]), (4, ["nop"]), (5, ["movv", "a", "x"]), (6, []), (7, ["add", "a", "q"]), (8, ["jmp"]), (99, ["ret"])]

theorem witness_StepRunsTheDecodedInstruction :
    AboutToCycle (st [(.pc, 3)] small) ∧ inArray ((st [(.pc, 3)] small).reg .pc).toInt ∧
    decodeCell ((st [(.pc, 3)] small).cell ((st [(.pc, 3)] small).reg .pc).toInt.toNat) = .instr (.movv .a 5) ∧
    exec (.movv .a 5) (st [(.pc, 3)] small) = .next (ran (.movv .a 5) (st [(.pc, 3)] small)) :=
  ⟨⟨rfl, by decide⟩, by decide, by decide, rfl⟩
theorem witness_StepRunsTheDecodedInstruction_last :
    AboutToCycle (st [(.pc, 99)] small) ∧ inArray ((st [(.pc, 99)] small).reg .pc).toInt ∧
    decodeCell ((st [(.pc, 99)] small).cell ((st [(.pc, 99)] small).reg .pc).toInt.toNat) = .instr .ret ∧
    exec .ret (st [(.pc, 99)] small) = .next (ran .ret (st [(.pc, 99)] small)) :=
  ⟨⟨rfl, by decide⟩, by decide, by decide, rfl⟩
theorem witness_FetchFaultEndsTheCycle :
    (inArray ((st [(.pc, 3)] small).reg .pc).toInt ∧
      (st [(.pc, 3)] small).cell ((st [(.pc, 3)] small).reg .pc).toInt.toNat = "movv".toList :: toks ["a", "5"]) ∧
    (AboutToCycle (st [(.pc, -1)] small) ∧ ¬ inArray ((st [(.pc, -1)] small).reg .pc).toInt) ∧
    (AboutToCycle (st [(.pc, 100)] small) ∧ ¬ inArray ((st [(.pc, 100)] small).reg .pc).toInt) ∧
    (AboutToCycle (st [(.pc, 6)] small) ∧ (st [(.pc, 6)] small).cell ((st [(.pc, 6)] small).reg .pc).toInt.toNat = []) :=
  ⟨by decide, ⟨⟨rfl, by decide⟩, by decide⟩, ⟨⟨rfl, by decide⟩, by decide⟩, ⟨rfl, by decide⟩, by decide⟩
theorem witness_InvalidOpcodeEndsTheCycle :
    (AboutToCycle (st [(.pc, 4)] small) ∧ inArray ((st [(.pc, 4)] small).reg .pc).toInt ∧
      (st [(.pc, 4)] small).cell ((st [(.pc, 4)] small).reg .pc).toInt.toNat = "nop".toList :: []) ∧
    (∀ o : Opcode, o.name ≠ "nop".toList) ∧
    (AboutToCycle (st [(.pc, 3)] small) ∧ inArray ((st [(.pc, 3)] small).reg .pc).toInt ∧
      (st [(.pc, 3)] small).cell ((st [(.pc, 3)] small).reg .pc).toInt.toNat = "movv".toList :: toks ["a", "5"]) ∧
    Opcode.movv.name = "movv".toList :=
  ⟨⟨⟨rfl, by decide⟩, by decide, by decide⟩, by intro o; cases o <;> decide, ⟨⟨rfl, by decide⟩, by decide, by decide⟩, rfl⟩
theorem witness_OperandFaultKeepsTheTick :
    (AboutToCycle (st [(.pc, 5)] small) ∧ inArray ((st [(.pc, 5)] small).reg .pc).toInt ∧
      decodeCell ((st [(.pc, 5)] small).cell ((st [(.pc, 5)] small).reg .pc).toInt.toNat) = .bad (.operandParseError "x".toList)) ∧
    (AboutToCycle (st [(.pc, 7)] small) ∧ inArray ((st [(.pc, 7)] small).reg .pc).toInt ∧
      decodeCell ((st [(.pc, 7)] small).cell ((st [(.pc, 7)] small).reg .pc).toInt.toNat) = .bad (.unknownRegister "q".toList)) ∧
    (AboutToCycle (st [(.pc, 8)] small) ∧ inArray ((st [(.pc, 8)] small).reg .pc).toInt ∧
      decodeCell ((st [(.pc, 8)] small).cell ((st [(.pc, 8)] small).reg .pc).toInt.toNat) = .bad (.missingOperand "jmp".toList)) :=
  ⟨⟨⟨rfl, by decide⟩, by decide, by decide⟩, ⟨⟨rfl, by decide⟩, by decide, by decide⟩, ⟨⟨rfl, by decide⟩, by decide, by decide⟩⟩

/-- A state armed and one tick from due, and its state after the tick; a state that is not armed. -/
theorem witness_CycleEndTicksThenInjects :
    (((st [(.int, 1), (.timer, 1)] []).reg .int).toInt = 1 ∧ (st [(.int, 1), (.timer, 1)] []).tick.reg .timer = 0) ∧
    ¬ (((st [(.int, 2), (.timer, 1)] []).reg .int).toInt = 1 ∧ (st [(.int, 2), (.timer, 1)] []).tick.reg .timer = 0) ∧
    ¬ (((st [(.int, 1), (.timer, 0)] []).reg .int).toInt = 1 ∧ (st [(.int, 1), (.timer, 0)] []).tick.reg .timer = 0) := by decide
theorem witness_InjectionEntersTheHandler :
    inArray (((st [(.sp, -1)] []).reg .sp).toInt + 1) ∧ inArray (((st [(.sp, 98)] []).reg .sp).toInt + 1) ∧
    (Config.memSize : Int) ≤ ((st [(.sp, 99)] []).reg .sp).toInt + 1 ∧ ((st [(.sp, -2)] []).reg .sp).toInt + 1 < 0 := by decide
theorem witness_HaltedIsTerminal :
    ((st [(.halt, -1)] []).run = .running ∧ (st [(.halt, -1)] []).reg .halt ≠ 0) ∧
    (st [(.halt, 1)] []).enterHalted.run = .halted := by decide
theorem witness_AFaultEndsTheRun :
    step (st [(.pc, 5)] small) = .next (stepped (st [(.pc, 5)] small)) ∧
    (stepped (st [(.pc, 5)] small)).faultLog ≠ (st [(.pc, 5)] small).faultLog := ⟨rfl, by decide⟩
theorem witness_HaltFlagIsNeverCleared :
    (step (st [(.halt, 5)] small) = .next (stepped (st [(.halt, 5)] small)) ∧ (st [(.halt, 5)] small).reg .halt ≠ 0) ∧
    (step (st [] [(0, ["movv", "halt", "5"])]) = .next (stepped (st [] [(0, ["movv", "halt", "5"])])) ∧
      (stepped (st [] [(0, ["movv", "halt", "5"])])).reg .halt ≠ 0) :=
  ⟨⟨rfl, by decide⟩, rfl, by decide⟩

/-- An image with two pairs for one address and an empty cell. -/
def twice : Image := [(0, toks ["halt"]), (99, []), (0, toks ["ret", "x"])]

theorem witness_ProgramImageIsApplied :
    boot twice = some (st [] [(0, ["ret", "x"]), (99, [])]) ∧
    (∃ p ∈ ([(100, toks ["halt"])] : Image), Config.memSize ≤ p.1) ∧
    (∀ p ∈ twice, p.1 < Config.memSize ∧ Cell.wf p.2 = true) := by decide
theorem witness_NoInjectionInTheFirstCycle :
    boot [(0, toks ["movv", "int", "1"])] = some (st [] [(0, ["movv", "int", "1"])]) ∧
    exec (.movv .int 1) (st [] [(0, ["movv", "int", "1"])]) = .next (ran (.movv .int 1) (st [] [(0, ["movv", "int", "1"])])) ∧
    step (st [] [(0, ["movv", "int", "1"])]) = .next (stepped (st [] [(0, ["movv", "int", "1"])])) :=
  ⟨by decide, rfl, rfl⟩
/-- The same with an operand that does not decode: the first cycle faults and ticks. -/
theorem witness_NoInjectionInTheFirstCycle_fault :
    boot [(0, toks ["movv", "a", "x"])] = some (st [] [(0, ["movv", "a", "x"])]) ∧
    step (st [] [(0, ["movv", "a", "x"])]) = .next (st [] [(0, ["movv", "a", "x"])] |>.raise (.operandParseError "x".toList)).tick :=
  ⟨by decide, rfl⟩
theorem witness_BootMeetsTheInvariant : boot twice = some (st [] [(0, ["ret", "x"]), (99, [])]) := by decide
theorem witness_StepKeepsTheInvariant :
    (st [(.pc, 3), (.sp, 97)] small).Inv ∧
    step (st [(.pc, 3), (.sp, 97)] small) = .next (stepped (st [(.pc, 3), (.sp, 97)] small)) := ⟨by decide, rfl⟩
theorem witness_OnlyTheImagePlacesInstructions :
    core.run 1 (st [(.pc, 3)] small) = .next (stepped (st [(.pc, 3)] small)) ∧
    (stepped (st [(.pc, 3)] small)).cell 99 = Opcode.ret.name :: [] := ⟨rfl, by decide⟩
theorem witness_NoStepEmptiesACell :
    step (st [(.pc, 3)] small) = .next (stepped (st [(.pc, 3)] small)) ∧ (st [(.pc, 3)] small).cell 0 ≠ [] := ⟨rfl, by decide⟩
theorem witness_OnlyOutAppendsToOutput :
    (step (st [] [(0, ["out", "sp"])]) = .next (stepped (st [] [(0, ["out", "sp"])])) ∧ RunsOut (st [] [(0, ["out", "sp"])]) .sp) ∧
    (step (st [(.pc, 3)] small) = .next (stepped (st [(.pc, 3)] small)) ∧ ∀ r, ¬ RunsOut (st [(.pc, 3)] small) r) := by
  refine ⟨⟨rfl, ⟨rfl, by decide⟩, by decide, by decide⟩, rfl, ?_⟩
  intro r h
  exact absurd h.2.2 (by revert r; intro r _; cases r <;> decide)
theorem witness_ResetState :
    (boot twice = some (st [] [(0, ["ret", "x"]), (99, [])]) ∧ ∀ p ∈ twice, p.1 ≠ 50) ∧
    inArray 0 ∧ inArray 99 ∧ State.reset.cell (99 : Int).toNat = ["0".toList] := by decide
theorem witness_ProgramCounterAfterTheHandler :
    (exec (.pop .pc) (st [(.sp, -1)] mixed) = .next (ran (.pop .pc) (st [(.sp, -1)] mixed)) ∧
      (ran (.pop .pc) (st [(.sp, -1)] mixed)).faultLog ≠ (st [(.sp, -1)] mixed).faultLog) ∧
    (exec (.pop .pc) (st [(.sp, 99)] mixed) = .next (ran (.pop .pc) (st [(.sp, 99)] mixed)) ∧
      (ran (.pop .pc) (st [(.sp, 99)] mixed)).faultLog = (st [(.sp, 99)] mixed).faultLog) :=
  ⟨⟨rfl, by decide⟩, rfl, by decide⟩
theorem witness_OnlyNamedRegistersChange :
    exec (.call 5) (st [(.sp, 99)] []) = .next (ran (.call 5) (st [(.sp, 99)] [])) ∧
    Reg.acc ∉ writes (.call 5) ∧ Reg.acc ≠ .halt ∧ Reg.halt ∉ writes (.call 5) ∧
    Reg.acc ∉ [Reg.timer, Reg.sp, Reg.pc, Reg.int, Reg.halt] := ⟨rfl, by decide⟩
theorem witness_StackPointerStaysInBounds :
    (-1 ≤ ((st [(.sp, -1)] []).reg .sp).toInt ∧ ((st [(.sp, 99)] []).reg .sp).toInt < (Config.memSize : Int)) ∧
    exec .ret (st [(.sp, 99)] mixed) = .next (ran .ret (st [(.sp, 99)] mixed)) ∧
    exec (.call 5) (st [(.sp, 99)] mixed) = .next (ran (.call 5) (st [(.sp, 99)] mixed)) ∧
    ((ran (.call 5) (st [(.sp, 99)] mixed)).reg .sp).toInt = (Config.memSize : Int) := ⟨by decide, rfl, rfl, by decide⟩
theorem witness_RetReturnsAfterTheCall :
    let s := st [(.pc, 1), (.sp, 80)] []
    let t := ran (.call 5) s
    let u := ran (.movv .a 9) t
    inArray ((s.reg .sp).toInt + 1) ∧ inArray (s.reg .pc).toInt ∧ exec (.call 5) s = .next t ∧ u.reg .sp = t.reg .sp ∧
      u.cell ((s.reg .sp).toInt + 1).toNat = t.cell ((s.reg .sp).toInt + 1).toNat :=
  ⟨by decide, by decide, rfl, by decide, by decide⟩
theorem witness_PopAfterPushRestores :
    Reg.a ≠ .sp ∧ Reg.a ≠ .pc ∧ inArray (((st [(.a, -4), (.sp, 98)] []).reg .sp).toInt + 1) ∧
    exec (.push .a) (st [(.a, -4), (.sp, 98)] []) = .next (ran (.push .a) (st [(.a, -4), (.sp, 98)] [])) :=
  ⟨by decide, by decide, by decide, rfl⟩
theorem witness_RetResumesTheInterruptedProgram :
    let s := st [(.pc, 4), (.sp, 60), (.ivec, 50), (.int, 1)] []
    let u := ran (.movv .a 9) s.inject
    inArray ((s.reg .sp).toInt + 1) ∧ u.reg .sp = s.inject.reg .sp ∧
      u.cell ((s.reg .sp).toInt + 1).toNat = s.inject.cell ((s.reg .sp).toInt + 1).toNat := by decide

/-- The interrupt armed, before the cycle of `movv timer 2`; then before the cycle of `jmp 3`; then after it. -/
def armedState : State := st [(.pc, 2), (.ivec, 50), (.int, 1), (.timer, -2)] []
def loopState : State := (ran (.movv .timer 2) armedState).endOfCycle
def divertedState : State := (ran (.jmp 3) loopState).endOfCycle
/-- The states before the cycles, and after their handlers. -/
def beforeCycle (k : Nat) : State := if k = 0 then armedState else if k = 1 then loopState else divertedState
def afterHandler (k : Nat) : State := if k = 0 then ran (.movv .timer 2) armedState else ran (.jmp 3) loopState
theorem witness_TimerCountsCyclesToTheInjection :
    1 ≤ 2 ∧ inRange ((2 : Nat) : Int) ∧ (∀ k, k < 2 → ∃ i, exec i (beforeCycle k) = .next (afterHandler k)) ∧
    (∀ k, k < 2 → beforeCycle (k + 1) = (afterHandler k).endOfCycle) ∧
    ((afterHandler 0).reg .timer).toInt = ((2 : Nat) : Int) ∧ (afterHandler 0).reg .int = 1 ∧
    (∀ k, 0 < k → k < 2 → (afterHandler k).reg .timer = (beforeCycle k).reg .timer ∧
      (afterHandler k).reg .int = (beforeCycle k).reg .int) := by
  refine ⟨by decide, by decide, ?_, ?_, by decide, by decide, ?_⟩
  · intro k hk
    match k, hk with
    | 0, _ => exact ⟨.movv .timer 2, rfl⟩
    | 1, _ => exact ⟨.jmp 3, rfl⟩
  · intro k hk
    match k, hk with
    | 0, _ => rfl
    | 1, _ => rfl
  · intro k h0 hk
    match k, h0, hk with
    | 1, _, _ => decide
/-- The smallest count, `n = 1`: the injection of the writing cycle itself. -/
theorem witness_TimerCountsCyclesToTheInjection_one :
    let s := st [(.pc, 2), (.ivec, 50), (.int, 1)] []
    exec (.movv .timer 1) s = .next (ran (.movv .timer 1) s) ∧ ((ran (.movv .timer 1) s).reg .timer).toInt = ((1 : Nat) : Int) ∧
      (ran (.movv .timer 1) s).reg .int = 1 := ⟨rfl, by decide⟩
theorem witness_FinalStateReadOut : (0 : Nat) < Config.memSize ∧ (99 : Nat) < Config.memSize := by decide
theorem witness_RunsUnderFuelEndHalted :
    runToHalt 2 (st [] [(0, ["halt"])]) = some (stepped (stepped (st [] [(0, ["halt"])]))) ∧
    core.run 2 (st [] [(0, ["halt"])]) = .next (stepped (stepped (st [] [(0, ["halt"])]))) ∧
    (stepped (stepped (st [] [(0, ["halt"])]))).run = .halted ∧ (stepped (stepped (st [] [(0, ["halt"])]))).faultLog = [] :=
  ⟨rfl, rfl, by decide, by decide⟩
/-- A run that a fault ends, and one that the fuel does not reach. -/
theorem witness_RunsUnderFuelEndHalted_fault :
    runToHalt 2 State.reset = some (stepped (stepped State.reset)) ∧ (stepped (stepped State.reset)).faultLog ≠ [] ∧
    runToHalt 1 State.reset = none := ⟨rfl, by decide, rfl⟩

end Sys2Proof.Tests
end

section
/-! PROOFS. `wrap` is characterised by two facts: its value is in the range (`toInt_inRange`) and congruent to its argument
modulo `2^W` (`wrap_congr`). The range holds one value of each residue class, so whatever has both properties is that value. -/

namespace Sys2Proof

/-- The range is one full period of the modulus: `2^W` values, from `INT_MIN` up (R7, R9). -/
theorem inRange_iff_lt_intMin_add {v : Int} :
    inRange v ↔ Config.intMin ≤ v ∧ v < Config.intMin + 2 ^ Config.W := by
  have hmax : Config.intMax + 1 = Config.intMin + 2 ^ Config.W := by decide
  constructor
  · rintro ⟨hlo, hhi⟩
    exact ⟨hlo, by omega⟩
  · rintro ⟨hlo, hlt⟩
    exact ⟨hlo, by omega⟩

/-- Two values of the range that are congruent modulo `2^W` are equal: they are less than one period apart. -/
theorem eq_of_inRange_of_dvd_sub {u w : Int} (hu : inRange u) (hw : inRange w) (h : (2 ^ Config.W : Int) ∣ u - w) :
    u = w := by
  obtain ⟨hu1, hu2⟩ := inRange_iff_lt_intMin_add.mp hu
  obtain ⟨hw1, hw2⟩ := inRange_iff_lt_intMin_add.mp hw
  have habs : |u - w| < 2 ^ Config.W := abs_lt.mpr ⟨by omega, by omega⟩
  exact Int.sub_eq_zero.mp (Int.eq_zero_of_abs_lt_dvd h habs)

/-- The only value of the range congruent to `v` is `wrap v` (R87). -/
theorem eq_wrap_toInt_of_dvd_sub {v w : Int} (hw : inRange w) (h : (2 ^ Config.W : Int) ∣ v - w) :
    w = (wrap v).toInt := by
  have hdvd : (2 ^ Config.W : Int) ∣ w - (wrap v).toInt := by
    have hsub := dvd_sub (wrap_congr v) h
    rwa [sub_sub_sub_cancel_left] at hsub
  exact eq_of_inRange_of_dvd_sub hw (toInt_inRange _) hdvd

/-- The formula of R9: a remainder modulo `2^W` counted from `INT_MIN` is in the range, and congruent to `v`. -/
theorem wrap_toInt_eq_emod (v : Int) :
    (wrap v).toInt = (v - Config.intMin) % 2 ^ Config.W + Config.intMin := by
  have hpos : (0 : Int) < 2 ^ Config.W := by decide
  have hrange : inRange ((v - Config.intMin) % 2 ^ Config.W + Config.intMin) := by
    have hlo := Int.emod_nonneg (v - Config.intMin) hpos.ne'
    have hlt := Int.emod_lt_of_pos (v - Config.intMin) hpos
    exact inRange_iff_lt_intMin_add.mpr ⟨by omega, by omega⟩
  have hdvd : (2 ^ Config.W : Int) ∣ v - ((v - Config.intMin) % 2 ^ Config.W + Config.intMin) := by
    have hself := Int.dvd_self_sub_emod (x := v - Config.intMin) (m := 2 ^ Config.W)
    rwa [sub_sub, add_comm] at hself
  exact (eq_wrap_toInt_of_dvd_sub hrange hdvd).symm

/-- Settles O18: the formula, the range, uniqueness and the identity on the range, each a fact about `wrap`. -/
theorem wrapIsTheCongruentValueInRange : Obligations.WrapIsTheCongruentValueInRange := fun v =>
  ⟨wrap_toInt_eq_emod v, toInt_inRange _, fun _ hw h => eq_wrap_toInt_of_dvd_sub hw h, wrap_toInt⟩

end Sys2Proof
end

section
/-! PROOFS. The frames of the state (10_state.md). What the end of a cycle can do and what a completed instruction leaves alone
are said once; the register frame, the output stream and the fault log follow from them. Memory needs no case analysis over the
instructions: whatever one `MemWrite` inside the array keeps, every step keeps (`Moves`). -/

namespace Sys2Proof.Machine

open Sys2Proof.Claims

/-! ### The end of a cycle (R112, R115) -/

/-- Injection raises one stack fault, or it is the writes of R115 on a legal stack. -/
theorem inject_cases (s : State) :
    (∃ f, s.inject = s.raise f) ∨
    (inArray s.nextTop ∧ s.inject =
      (((s.setReg .sp (wrap s.nextTop)).memWrite s.nextTop.toNat (s.reg .pc).toInt).setReg .pc (s.reg .ivec)).setReg .int 0) := by
  cases hf : stackFault s.nextTop with
  | none => exact .inr ⟨stackFault_none.mp hf, inject_inArray (stackFault_none.mp hf)⟩
  | some f => exact .inl ⟨f, inject_fault hf⟩

/-- The end of a cycle is the tick, alone or with the injection after it (R114). -/
theorem endOfCycle_cases (s : State) : s.endOfCycle = s.tick ∨ s.endOfCycle = s.tick.inject := by
  by_cases hd : s.tick.reg .int = 1 ∧ s.tick.reg .timer = 0
  · exact .inr (endOfCycle_due hd.1 hd.2)
  · exact .inl (endOfCycle_not_due hd)

@[simp] theorem endOfCycle_output (s : State) : s.endOfCycle.output = s.output := by
  rcases endOfCycle_cases s with h | h <;> rw [h]
  · exact tick_output s
  · rw [(inject_frame s.tick).1, tick_output]

@[simp] theorem endOfCycle_run (s : State) : s.endOfCycle.run = s.run := by
  rcases endOfCycle_cases s with h | h <;> rw [h]
  · exact tick_run s
  · rw [(inject_frame s.tick).2, tick_run]

/-! ### Register frames (R19, R21, R22, R26) -/

/-- Every register outside the list has the same value in both states. -/
def SameRegsExcept (rs : List Reg) (s t : State) : Prop := ∀ q, q ∉ rs → t.reg q = s.reg q

namespace SameRegsExcept

variable {rs : List Reg} {s t : State}

theorem refl : SameRegsExcept rs s s := fun _ _ => rfl

theorem setReg (h : SameRegsExcept rs s t) {r : Reg} (hr : r ∈ rs) (v : Word) : SameRegsExcept rs s (t.setReg r v) :=
  fun q hq => (reg_setReg_ne t v (fun he : q = r => hq (he ▸ hr))).trans (h q hq)

theorem advancePc (h : SameRegsExcept rs s t) (hp : .pc ∈ rs) : SameRegsExcept rs s t.advancePc := h.setReg hp _

theorem memWrite (h : SameRegsExcept rs s t) (a : Nat) (v : Int) : SameRegsExcept rs s (t.memWrite a v) := h

theorem emit (h : SameRegsExcept rs s t) (v : Word) : SameRegsExcept rs s (t.emit v) := h

theorem raise (h : SameRegsExcept rs s t) (hh : .halt ∈ rs) (f : FaultInfo) : SameRegsExcept rs s (t.raise f) :=
  fun q hq => (reg_raise_ne t f (fun he : q = .halt => hq (he ▸ hh))).trans (h q hq)

end SameRegsExcept

/-- The registers the end of a cycle can change: `timer` by the tick, the others by injection or its fault. -/
theorem endOfCycle_sameRegsExcept (s : State) : SameRegsExcept [.timer, .sp, .pc, .int, .halt] s s.endOfCycle := by
  have htick : SameRegsExcept [.timer, .sp, .pc, .int, .halt] s s.tick := SameRegsExcept.refl.setReg (by decide) _
  rcases endOfCycle_cases s with h | h <;> rw [h]
  · exact htick
  · rcases inject_cases s.tick with ⟨f, hi⟩ | ⟨-, hi⟩ <;> rw [hi]
    · exact htick.raise (by decide) f
    · exact (((htick.setReg (by decide) _).memWrite _ _).setReg (by decide) _).setReg (by decide) _

/-! ### A completed instruction -/

variable {s t : State} {i : Instr}

/-- An instruction that completes writes only the registers `writes` lists. -/
theorem Completes.sameRegsExcept (h : Completes s i t) : SameRegsExcept (writes i) s t := by
  cases h with
  | mov | movv | load | loadr | add | sub | mod | halt =>
    exact (SameRegsExcept.refl.setReg (by simp [writes]) _).advancePc (by simp [writes])
  | store | storer => exact (SameRegsExcept.refl.memWrite _ _).advancePc (by simp [writes])
  | out => exact (SameRegsExcept.refl.emit _).advancePc (by simp [writes])
  | push => exact ((SameRegsExcept.refl.setReg (by simp [writes]) _).memWrite _ _).advancePc (by simp [writes])
  | pop =>
    exact ((SameRegsExcept.refl.setReg (by simp [writes]) _).setReg (by simp [writes]) _).advancePc (by simp [writes])
  | call =>
    exact ((SameRegsExcept.refl.setReg (by simp [writes]) _).memWrite _ _).setReg (by simp [writes]) _
  | ret => exact (SameRegsExcept.refl.setReg (by simp [writes]) _).setReg (by simp [writes]) _
  | jmp | jnz_taken => exact SameRegsExcept.refl.setReg (by simp [writes]) _
  | jnz_not_taken => exact SameRegsExcept.refl.advancePc (by simp [writes])

theorem Completes.faultLog_eq (h : Completes s i t) : t.faultLog = s.faultLog := by cases h <;> rfl

theorem Completes.run_eq (h : Completes s i t) : t.run = s.run := by cases h <;> rfl

/-- Of the instructions only `out` writes the output stream (R35). -/
theorem Completes.output_eq (h : Completes s i t) (hout : ∀ r, i ≠ .out r) : t.output = s.output := by
  cases h with
  | out r => exact absurd rfl (hout r)
  | _ => rfl

/-! ### An instruction, faults included -/

/-- An instruction that answers a next state completes, or it ends in a raised fault, before which at most a `call` has
written `sp` (R89, D13). -/
theorem exec_completes_or_raises (h : exec i s = .next t) :
    Completes s i t ∨ ∃ u f, t = u.raise f ∧ SameRegsExcept (writes i) s u ∧
      u.faultLog = s.faultLog ∧ u.run = s.run ∧ u.output = s.output := by
  rcases exec_cases h with hc | ⟨f, rfl⟩ | ⟨target, f, rfl, -, rfl⟩
  · exact .inl hc
  · exact .inr ⟨s, f, rfl, .refl, rfl, rfl, rfl⟩
  · exact .inr ⟨_, f, rfl, SameRegsExcept.refl.setReg (by simp [writes]) _, rfl, rfl, rfl⟩

theorem exec_run (h : exec i s = .next t) : t.run = s.run := by
  obtain hc | ⟨u, f, rfl, -, -, hrun, -⟩ := exec_completes_or_raises h
  · exact hc.run_eq
  · rw [raise_run, hrun]

theorem exec_output (h : exec i s = .next t) (hout : ∀ r, i ≠ .out r) : t.output = s.output := by
  obtain hc | ⟨u, f, rfl, -, -, -, ho⟩ := exec_completes_or_raises h
  · exact hc.output_eq hout
  · rw [raise_output, ho]

/-- A register other than `halt` that the instruction does not name keeps its value, faults included. -/
theorem exec_reg_of_not_mem_writes (h : exec i s = .next t) {q : Reg} (hq : q ∉ writes i) (hh : q ≠ .halt) :
    t.reg q = s.reg q := by
  obtain hc | ⟨u, f, rfl, hregs, -⟩ := exec_completes_or_raises h
  · exact hc.sameRegsExcept q hq
  · rw [reg_raise_ne u f hh, hregs q hq]

/-- `halt`, where the instruction does not name it, changes only by a fault (R103). -/
theorem exec_halt_of_not_mem_writes (h : exec i s = .next t) (hq : .halt ∉ writes i) :
    t.reg .halt = s.reg .halt ∨ (t.reg .halt = 1 ∧ t.faultLog ≠ s.faultLog) := by
  obtain hc | ⟨u, f, rfl, -, hlog, -⟩ := exec_completes_or_raises h
  · exact .inl (hc.sameRegsExcept _ hq)
  · exact .inr ⟨reg_raise_halt u f, by simp [hlog]⟩

/-! ### What a cycle runs -/

/-- A fetch that succeeds is of a cell in the array (R70). -/
theorem fetch_eq_some {c : Cell} (h : fetch s = some c) :
    inArray (s.reg .pc).toInt ∧ s.cell (s.reg .pc).toInt.toNat = c := by
  have hp : inArray (s.reg .pc).toInt := by
    by_contra hp
    rw [fetch_outside hp] at h
    cases h
  cases hc : s.cell (s.reg .pc).toInt.toNat with
  | nil => rw [fetch_empty hc] at h; cases h
  | cons tok ts => rw [fetch_cell hp hc] at h; cases h; exact ⟨hp, rfl⟩

/-- The cycle runs `i` exactly when `pc` is in the array and its cell decodes to `i` (R70 to R72). -/
theorem fetchDecode_runs_iff :
    fetchDecode s = .runs i ↔
      inArray (s.reg .pc).toInt ∧ decodeCell (s.cell (s.reg .pc).toInt.toNat) = .instr i := by
  refine ⟨fun h => ?_, fun ⟨hp, hc⟩ => fetchDecode_runs hp hc⟩
  cases hf : fetch s with
  | none => simp [fetchDecode, hf] at h
  | some c =>
    obtain ⟨hp, rfl⟩ := fetch_eq_some hf
    cases hd : decodeCell (s.cell (s.reg .pc).toInt.toNat) with
    | instr j => simp only [fetchDecode, hf, hd, Fetched.runs.injEq] at h; exact ⟨hp, h ▸ rfl⟩
    | bad f => cases f <;> simp [fetchDecode, hf, hd, fetchedFault] at h

/-- The step of a cycle that runs `out r` (R94). -/
theorem step_runsOut {r : Reg} (h : RunsOut s r) : step s = .next ((s.emit (s.reg r)).advancePc).endOfCycle := by
  obtain ⟨⟨hrun, hhalt⟩, hp, hc⟩ := h
  exact step_runs hrun hhalt (fetchDecode_runs hp hc) rfl

/-- A step that runs no `out` leaves the output stream alone (R35). -/
theorem step_output_of_not_runsOut (h : step s = .next t) (hout : ∀ r, ¬ RunsOut s r) : t.output = s.output := by
  obtain ⟨-, rfl⟩ | ⟨-, -, rfl⟩ | ⟨-, -, f, -, rfl⟩ | ⟨-, -, f, -, rfl⟩ | ⟨hrun, hhalt, i, u, hf, he, rfl⟩ := step_cases h
  · rfl
  · exact enterHalted_output s
  · exact raise_output s f
  · rw [endOfCycle_output, raise_output]
  · have hi : ∀ r, i ≠ .out r := fun r hir =>
      hout r ⟨⟨hrun, hhalt⟩, fetchDecode_runs_iff.mp (hir ▸ hf)⟩
    rw [endOfCycle_output, exec_output he hi]

end Sys2Proof.Machine

namespace Sys2Proof

open Sys2Proof.Machine

/-- Settles O49: the frame of a completed instruction and of a raised fault, and that of the end of a cycle. -/
theorem onlyNamedRegistersChange : Obligations.OnlyNamedRegistersChange :=
  ⟨fun _ _ _ _ h hq hh => exec_reg_of_not_mem_writes h hq hh, fun _ _ _ h hq => exec_halt_of_not_mem_writes h hq,
    endOfCycle_sameRegsExcept⟩

/-- Settles O47: `out` appends before the end of its cycle, which, like every other part of a step, leaves the stream alone. -/
theorem onlyOutAppendsToOutput : Obligations.OnlyOutAppendsToOutput := by
  refine ⟨rfl, fun s t h => ⟨fun r hr => ?_, step_output_of_not_runsOut h⟩⟩
  rw [step_runsOut hr] at h
  cases h
  simp

end Sys2Proof
end

section
/-! PROOFS. The invariant (R33, R34, R36, R59, R108). Its memory part is kept by every `MemWrite` inside the array. Its fault
log part counts: the log is empty before a cycle, and the handler and the injection each add at most one report. -/

namespace Sys2Proof.Machine

/-- Whatever a `MemWrite` inside the array keeps of the memory is kept by every sequence of primitive updates. -/
theorem Moves.mem_induction {P : Memory → Prop}
    (hwrite : ∀ (u : State) {a : Nat} (v : Int), a < Config.memSize → P u.mem → P (u.memWrite a v).mem)
    {s t : State} (h : Moves s t) (hs : P s.mem) : P t.mem := by
  induction h with
  | refl => exact hs
  | memWrite _ v ha ih => exact hwrite _ v ha ih
  | setReg _ _ _ ih | emit _ _ ih | raise _ _ ih | enterHalted _ ih => exact ih

/-! ### The tokens of the memory (R59) -/

theorem Memory.mem_of_mem_erase {m : Memory} {a : Nat} {p : Nat × Cell} (h : p ∈ Memory.erase m a) : p ∈ m := by
  induction m with
  | nil => exact h
  | cons q m ih =>
    unfold Memory.erase at h
    split at h
    · exact List.mem_cons_of_mem _ (ih h)
    · rcases List.mem_cons.mp h with rfl | h
      · exact List.mem_cons_self
      · exact List.mem_cons_of_mem _ (ih h)

theorem Memory.mem_of_mem_insert {m : Memory} {a : Nat} {c : Cell} {p : Nat × Cell} (h : p ∈ Memory.insert m a c) :
    p = (a, c) ∨ p ∈ m := by
  induction m with
  | nil => exact .inl (List.mem_singleton.mp h)
  | cons q m ih =>
    unfold Memory.insert at h
    split at h
    · exact List.mem_cons.mp h
    · rcases List.mem_cons.mp h with rfl | h
      · exact .inr List.mem_cons_self
      · exact (ih h).imp_right (List.mem_cons_of_mem _)

theorem Memory.mem_of_mem_set {m : Memory} {a : Nat} {c : Cell} {p : Nat × Cell} (h : p ∈ Memory.set m a c) :
    p = (a, c) ∨ p ∈ m := by
  unfold Memory.set at h
  split at h
  · exact .inr (Memory.mem_of_mem_erase h)
  · exact (Memory.mem_of_mem_insert h).imp_right Memory.mem_of_mem_erase

theorem tokensWf_iff {m : Memory} : tokensWf m = true ↔ ∀ p ∈ m, Cell.wf p.2 = true := List.all_eq_true

theorem tokensWf_set {m : Memory} {a : Nat} {c : Cell} (hm : tokensWf m = true) (hc : Cell.wf c = true) :
    tokensWf (Memory.set m a c) = true := by
  rw [tokensWf_iff] at hm ⊢
  intro p hp
  rcases Memory.mem_of_mem_set hp with rfl | hp
  · exact hc
  · exact hm p hp

/-- Every cell, listed or blank, is made of tokens. -/
theorem cellWf_read {m : Memory} (hm : tokensWf m = true) (a : Nat) : Cell.wf (Memory.read m a) = true := by
  rw [tokensWf_iff] at hm
  induction m with
  | nil => rw [Memory.read_nil]; decide
  | cons p m ih =>
    obtain ⟨b, c⟩ := p
    rw [Memory.read_cons]
    split
    · exact hm (b, c) List.mem_cons_self
    · exact ih (fun q hq => hm q (List.mem_cons_of_mem _ hq))

/-- A cell keeps its tokens when its first one is replaced by a token (R41). -/
theorem cellWf_replaceFirst {t : Token} {c : Cell} (ht : Token.wf t = true) (hc : Cell.wf c = true) :
    Cell.wf (replaceFirst t c) = true := by
  cases c with
  | nil => simp [Cell.wf, replaceFirst, ht]
  | cons t' ts =>
    simp only [Cell.wf, replaceFirst, List.all_cons, Bool.and_eq_true] at hc ⊢
    exact ⟨ht, hc.2⟩

theorem tokensWf_memWrite {s : State} (hs : tokensWf s.mem = true) (a : Nat) (v : Int) :
    tokensWf (s.memWrite a v).mem = true :=
  tokensWf_set hs (cellWf_replaceFirst (dec_wf v) (cellWf_read hs a))

/-! ### What every step keeps of the memory -/

variable {s t : State}

theorem step_memory_wf (h : step s = .next t) (hs : Memory.wf s.mem = true) : Memory.wf t.mem = true :=
  (step_moves h).mem_induction (P := fun m => Memory.wf m = true) (fun _ _ _ ha hu => memWrite_wf hu ha) hs

theorem step_tokensWf (h : step s = .next t) (hs : tokensWf s.mem = true) : tokensWf t.mem = true :=
  (step_moves h).mem_induction (P := fun m => tokensWf m = true) (fun _ _ v _ hu => tokensWf_memWrite hu _ v) hs

theorem cell_memWrite_ne_nil {k : Nat} (hs : s.cell k ≠ []) (a : Nat) (v : Int) : (s.memWrite a v).cell k ≠ [] := by
  rw [cell_memWrite]
  split
  · exact List.cons_ne_nil _ _
  · exact hs

theorem step_cell_ne_nil (h : step s = .next t) {k : Nat} (hs : s.cell k ≠ []) : t.cell k ≠ [] :=
  (step_moves h).mem_induction (P := fun m => Memory.read m k ≠ []) (fun _ _ v _ hu => cell_memWrite_ne_nil hu _ v) hs

/-! ### The fault log (R36, R103, R108) -/

/-- The fault log holds at most `n` reports, and only with `halt` not 0. For two reports this is `logWf`. -/
def LogAtMost (n : Nat) (s : State) : Prop := s.faultLog.length ≤ n ∧ (s.faultLog ≠ [] → s.reg .halt ≠ 0)

theorem logAtMost_two : LogAtMost 2 s ↔ logWf s := Iff.rfl

theorem LogAtMost.mono {m n : Nat} (h : LogAtMost m s) (hmn : m ≤ n) : LogAtMost n s := ⟨h.1.trans hmn, h.2⟩

/-- Only the log and `halt` matter. -/
theorem LogAtMost.congr {n : Nat} (h : LogAtMost n s) (hl : t.faultLog = s.faultLog) (hh : t.reg .halt = s.reg .halt) :
    LogAtMost n t := by
  unfold LogAtMost at h ⊢
  rwa [hl, hh]

theorem logAtMost_of_nil {n : Nat} (h : s.faultLog = []) : LogAtMost n s := by simp [LogAtMost, h]

/-- A raised fault is one more report, and sets `halt`. -/
theorem logAtMost_raise {n : Nat} (h : s.faultLog.length ≤ n) (f : FaultInfo) : LogAtMost (n + 1) (s.raise f) :=
  ⟨by simpa using h, by simp⟩

theorem logAtMost_inject {n : Nat} (h : LogAtMost n s) : LogAtMost (n + 1) s.inject := by
  rcases inject_cases s with ⟨f, hi⟩ | ⟨-, hi⟩ <;> rw [hi]
  · exact logAtMost_raise h.1 f
  · exact (h.mono n.le_succ).congr (by simp) (by simp)

theorem logAtMost_endOfCycle {n : Nat} (h : LogAtMost n s) : LogAtMost (n + 1) s.endOfCycle := by
  have htick : LogAtMost n s.tick := h.congr (tick_faultLog s) (by simp)
  rcases endOfCycle_cases s with he | he <;> rw [he]
  · exact htick.mono n.le_succ
  · exact logAtMost_inject htick

/-- A handler that starts with an empty log leaves at most one report. -/
theorem logAtMost_exec {i : Instr} (h : exec i s = .next t) (hs : s.faultLog = []) : LogAtMost 1 t := by
  obtain hc | ⟨u, f, rfl, -, hlog, -⟩ := exec_completes_or_raises h
  · exact logAtMost_of_nil (hc.faultLog_eq.trans hs)
  · exact logAtMost_raise (by simp [hlog, hs]) f

/-- A cycle starts with `halt` 0, so with an empty log, and its handler and its end add at most one report each. -/
theorem step_logWf (h : step s = .next t) (hs : logWf s) : logWf t := by
  have hempty (hh : s.reg .halt = 0) : s.faultLog = [] := by
    by_contra hne
    exact hs.2 hne hh
  rw [← logAtMost_two] at hs ⊢
  obtain ⟨-, rfl⟩ | ⟨-, -, rfl⟩ | ⟨-, hh, f, -, rfl⟩ | ⟨-, hh, f, -, rfl⟩ | ⟨-, hh, i, u, -, he, rfl⟩ := step_cases h
  · exact hs
  · exact hs.congr (enterHalted_faultLog s) (reg_enterHalted s .halt)
  · exact (logAtMost_raise (by simp [hempty hh]) f).mono one_le_two
  · exact logAtMost_endOfCycle (logAtMost_raise (by simp [hempty hh]) f)
  · exact logAtMost_endOfCycle (logAtMost_exec he (hempty hh))

/-! ### The run state (R34, R69) -/

/-- A cycle leaves the engine running: only the halt check, which finds `halt` not 0, enters `Halted`. -/
theorem step_halted_halt_ne_zero (h : step s = .next t) (hs : s.run = .halted → s.reg .halt ≠ 0) (ht : t.run = .halted) :
    t.reg .halt ≠ 0 := by
  obtain ⟨hrun, rfl⟩ | ⟨-, hh, rfl⟩ | ⟨hrun, -, f, -, rfl⟩ | ⟨hrun, -, f, -, rfl⟩ | ⟨hrun, -, i, u, -, he, rfl⟩ :=
    step_cases h
  · exact hs hrun
  · exact hh
  · simp [hrun] at ht
  · simp [hrun] at ht
  · simp [exec_run he, hrun] at ht

end Sys2Proof.Machine

namespace Sys2Proof

open Sys2Proof.Machine

/-- Settles O46: `MemWrite` writes a token 0, and nothing else writes a cell. -/
theorem noStepEmptiesACell : Obligations.NoStepEmptiesACell := fun _ _ h _ hs => step_cell_ne_nil h hs

/-- Settles O44, part by part: the memory's form and tokens, the fault log, and `halt` in `Halted`. -/
theorem stepKeepsTheInvariant : Obligations.StepKeepsTheInvariant := by
  rintro s t ⟨hwf, htokens, hlog, hhalted⟩ h
  exact ⟨step_memory_wf h hwf, step_tokensWf h htokens, step_logWf h hlog, step_halted_halt_ne_zero h hhalted⟩

/-- Settles O21: a token that names a register is its name, and every name names its own register (R17, R58). -/
theorem registerTokensAreTheThirteenNames : Obligations.RegisterTokensAreTheThirteenNames := by
  refine ⟨rfl, fun r => ?_, fun t r => ⟨fun h => (Reg.name_of_ofToken h).symm, ?_⟩⟩
  · cases r <;> decide
  · rintro rfl
    exact Reg.ofToken_name r

end Sys2Proof
end

section
/-! PROOFS. Memory (20_memory.md). A `MemWrite` puts a decimal token in front of the cell it writes, and no decimal token is an
opcode name. So no primitive update makes a cell begin with an opcode that did not, and no run does. -/

namespace Sys2Proof.Machine

theorem dec_ne_opcode_name (v : Int) (o : Opcode) : dec v ≠ o.name := by
  intro h
  have hnone : Opcode.ofToken o.name = none := h ▸ Opcode.ofToken_dec v
  rw [Opcode.ofToken_name] at hnone
  cases hnone

/-- Every cell of `m` that begins with an opcode name holds the same tokens in `m₀`. -/
def NoNewInstructions (m₀ m : Memory) : Prop :=
  ∀ (a : Nat) (o : Opcode) (rest : List Token), Memory.read m a = o.name :: rest → Memory.read m₀ a = o.name :: rest

theorem noNewInstructions_refl (m : Memory) : NoNewInstructions m m := fun _ _ _ h => h

/-- The written cell begins with a decimal token, so a cell that begins with an opcode name is another one (R54). -/
theorem noNewInstructions_memWrite {m₀ : Memory} {s : State} (hs : NoNewInstructions m₀ s.mem) (n : Nat) (v : Int) :
    NoNewInstructions m₀ (s.memWrite n v).mem := by
  intro a o rest (h : (s.memWrite n v).cell a = o.name :: rest)
  by_cases ha : a = n
  · subst ha
    rw [cell_memWrite_same] at h
    exact absurd (List.cons.inj h).1 (dec_ne_opcode_name v o)
  · rw [cell_memWrite_ne s v ha] at h
    exact hs a o rest h

theorem step_noNewInstructions {m₀ : Memory} {s t : State} (hs : NoNewInstructions m₀ s.mem) (h : step s = .next t) :
    NoNewInstructions m₀ t.mem :=
  (step_moves h).mem_induction (fun _ n v _ hu => noNewInstructions_memWrite hu n v) hs

theorem core_run_noNewInstructions {k : Nat} {s t : State} (h : core.run k s = .next t) : NoNewInstructions s.mem t.mem :=
  core_run_induction (P := fun u => NoNewInstructions s.mem u.mem) step_noNewInstructions (noNewInstructions_refl s.mem) h

theorem decodeCell_memWrite (s : State) (n : Nat) (v : Int) :
    decodeCell ((s.memWrite n v).cell n) = .bad (.invalidOpcode (dec v)) := by
  rw [cell_memWrite_same, decodeCell_dec]

/-- Token 0 of a written cell is the canonical token of the value, which `parseInt` reads back (R45). -/
theorem readData_memWrite (s : State) {a v : Int} (ha : inArray a) (hv : inRange v) :
    readData a (s.memWrite a.toNat v) = .ok v := by
  have hparse : parseInt (dec v) = some v := parseInt_eq_some.mpr ⟨parseDecimal_dec v, hv⟩
  rw [readData_inArray ha, cell_memWrite_same, cellInt_some hparse]

end Sys2Proof.Machine

namespace Sys2Proof

open Sys2Proof.Machine

/-- Settles O45: every step of the run keeps `NoNewInstructions`, and the token that `MemWrite` writes is no opcode name. -/
theorem onlyTheImagePlacesInstructions : Obligations.OnlyTheImagePlacesInstructions :=
  ⟨fun _ _ _ h => core_run_noNewInstructions h, decodeCell_memWrite⟩

/-- Settles O27: the written cell reads back as its canonical token. -/
theorem dataReadAfterWriteGivesTheValue : Obligations.DataReadAfterWriteGivesTheValue :=
  fun s _ _ ha hv => readData_memWrite s ha hv

/-- Settles O26: the written cell is the decimal token and the old cell's tail, which for an empty cell is empty (R41, D16). -/
theorem memWriteReplacesFirstToken : Obligations.MemWriteReplacesFirstToken := by
  intro s n v
  refine ⟨fun hempty => ?_, fun t ts hcons => ?_, fun a ha => cell_memWrite_ne s v ha, reg_memWrite s n v⟩
  · rw [cell_memWrite_same, hempty, List.tail_nil]
  · rw [cell_memWrite_same, hcons, List.tail_cons]

end Sys2Proof
end

section
/-! PROOFS. Decode and encode (R56, R57, R60 to R65), format by format: the decoder reads back the operand tokens that the
encoder writes, an instruction that decodes has its opcode and literals in range, and a failure of operand decoding is
always a fault of the handler. -/

namespace Sys2Proof

/-! ### The operand tokens of an instruction read back (R57, R62) -/

theorem withInt_dec {v : Int} (hv : literalWf v = true) (op : Token) (ts : List Token) (k : Int → List Token → Decoded) :
    withInt op (dec v :: ts) k = k v ts :=
  withInt_some ts k (parseInt_dec_of_literalWf hv)

theorem decodeR_name (op : Token) (mk : Reg → Instr) (r : Reg) (ts : List Token) :
    decodeR op mk (r.name :: ts) = .instr (mk r) :=
  withReg_name op r ts _

theorem decodeI_dec (op : Token) (mk : Int → Instr) {v : Int} (hv : literalWf v = true) (ts : List Token) :
    decodeI op mk (dec v :: ts) = .instr (mk v) :=
  withInt_dec hv op ts _

theorem decodeRR_names (op : Token) (mk : Reg → Reg → Instr) (r1 r2 : Reg) (ts : List Token) :
    decodeRR op mk (r1.name :: r2.name :: ts) = .instr (mk r1 r2) := by
  rw [decodeRR, withReg_name, withReg_name]

theorem decodeRI_name_dec (op : Token) (mk : Reg → Int → Instr) (r : Reg) {v : Int} (hv : literalWf v = true)
    (ts : List Token) : decodeRI op mk (r.name :: dec v :: ts) = .instr (mk r v) := by
  rw [decodeRI, withReg_name, withInt_dec hv]

theorem decodeIR_dec_name (op : Token) (mk : Int → Reg → Instr) {v : Int} (hv : literalWf v = true) (r : Reg)
    (ts : List Token) : decodeIR op mk (dec v :: r.name :: ts) = .instr (mk v r) := by
  rw [decodeIR, withInt_dec hv, withReg_name]

/-- The handler reads an instruction's operands from its operand tokens, whatever follows them. -/
theorem decodeOperands_operandTokens {i : Instr} (hi : i.wf = true) (extra : List Token) :
    decodeOperands i.opcode (operandTokens i ++ extra) = .instr i := by
  cases i with
  | ret | halt => rfl
  | out r | push r | pop r => exact decodeR_name _ _ r extra
  | mov r1 r2 | loadr r1 r2 | storer r1 r2 | add r1 r2 | sub r1 r2 | mod r1 r2 => exact decodeRR_names _ _ r1 r2 extra
  | movv r v | load r v => exact decodeRI_name_dec _ _ r hi extra
  | store v r | jnz v r => exact decodeIR_dec_name _ _ hi r extra
  | call v | jmp v => exact decodeI_dec _ _ hi extra

/-- Settles O23: token 0 selects the instruction's opcode, whose handler reads the operands back. -/
theorem decodeOfEncodeIsTheInstruction : Obligations.DecodeOfEncodeIsTheInstruction := by
  intro i extra hi
  rw [encode, List.cons_append, decodeCell_opcode, decodeOperands_operandTokens hi]

/-! ### What an instruction that decodes is (R60, R62, R64) -/

theorem literalWf_of_parseInt {t : Token} {v : Int} (h : parseInt t = some v) : literalWf v = true :=
  literalWf_iff.mpr (parseInt_eq_some.mp h).2

section
variable {op : Token} {ts : List Token} {i : Instr}

theorem decodeR_instr {mk : Reg → Instr} (h : decodeR op mk ts = .instr i) : 1 ≤ ts.length ∧ ∃ r, i = mk r := by
  obtain ⟨_, _, r, rfl, -, hk⟩ := withReg_instr h
  cases hk
  exact ⟨by simp, r, rfl⟩

theorem decodeI_instr {mk : Int → Instr} (h : decodeI op mk ts = .instr i) :
    1 ≤ ts.length ∧ ∃ v, literalWf v = true ∧ i = mk v := by
  obtain ⟨_, _, v, rfl, hv, hk⟩ := withInt_instr h
  cases hk
  exact ⟨by simp, v, literalWf_of_parseInt hv, rfl⟩

theorem decodeRR_instr {mk : Reg → Reg → Instr} (h : decodeRR op mk ts = .instr i) :
    2 ≤ ts.length ∧ ∃ r1 r2, i = mk r1 r2 := by
  obtain ⟨_, _, r1, rfl, -, hk⟩ := withReg_instr h
  obtain ⟨_, _, r2, rfl, -, hk⟩ := withReg_instr hk
  cases hk
  exact ⟨by simp, r1, r2, rfl⟩

theorem decodeRI_instr {mk : Reg → Int → Instr} (h : decodeRI op mk ts = .instr i) :
    2 ≤ ts.length ∧ ∃ r v, literalWf v = true ∧ i = mk r v := by
  obtain ⟨_, _, r, rfl, -, hk⟩ := withReg_instr h
  obtain ⟨_, _, v, rfl, hv, hk⟩ := withInt_instr hk
  cases hk
  exact ⟨by simp, r, v, literalWf_of_parseInt hv, rfl⟩

theorem decodeIR_instr {mk : Int → Reg → Instr} (h : decodeIR op mk ts = .instr i) :
    2 ≤ ts.length ∧ ∃ v r, literalWf v = true ∧ i = mk v r := by
  obtain ⟨_, _, v, rfl, hv, hk⟩ := withInt_instr h
  obtain ⟨_, _, r, rfl, -, hk⟩ := withReg_instr hk
  cases hk
  exact ⟨by simp, v, r, literalWf_of_parseInt hv, rfl⟩

/-- An opcode's handler decodes to a well-formed instruction of that opcode, from enough tokens. -/
theorem decodeOperands_instr {o : Opcode} (h : decodeOperands o ts = .instr i) :
    i.wf = true ∧ i.opcode = o ∧ o.format.arity ≤ ts.length := by
  cases o with
  | ret | halt => cases h; exact ⟨rfl, rfl, Nat.zero_le _⟩
  | out | push | pop => obtain ⟨hlen, r, rfl⟩ := decodeR_instr h; exact ⟨rfl, rfl, hlen⟩
  | mov | loadr | storer | add | sub | mod =>
    obtain ⟨hlen, r1, r2, rfl⟩ := decodeRR_instr h; exact ⟨rfl, rfl, hlen⟩
  | movv | load => obtain ⟨hlen, r, v, hv, rfl⟩ := decodeRI_instr h; exact ⟨hv, rfl, hlen⟩
  | store | jnz => obtain ⟨hlen, v, r, hv, rfl⟩ := decodeIR_instr h; exact ⟨hv, rfl, hlen⟩
  | call | jmp => obtain ⟨hlen, v, hv, rfl⟩ := decodeI_instr h; exact ⟨hv, rfl, hlen⟩

end

/-- A cell that decodes to an instruction is an opcode's name, then tokens that the opcode's handler decodes (R71, R72). -/
theorem decodeCell_instr {c : Cell} {i : Instr} (h : decodeCell c = .instr i) :
    ∃ o ts, c = Opcode.name o :: ts ∧ decodeOperands o ts = .instr i := by
  cases c with
  | nil => cases h
  | cons t ts =>
    cases ho : Opcode.ofToken t with
    | none => rw [decodeCell_not_opcode ts ho] at h; cases h
    | some o =>
      obtain rfl := Opcode.name_of_ofToken ho
      exact ⟨o, ts, rfl, decodeCell_opcode o ts ▸ h⟩

/-- Settles O24: token 0 is the opcode's name, and the rest is what its handler decoded. -/
theorem decodedInstructionsAreWellFormed : Obligations.DecodedInstructionsAreWellFormed := by
  intro c i h
  obtain ⟨o, ts, rfl, hops⟩ := decodeCell_instr h
  obtain ⟨hwf, rfl, hlen⟩ := decodeOperands_instr hops
  exact ⟨hwf, rfl, Nat.succ_le_succ hlen⟩

end Sys2Proof
end

section
/-! PROOFS. Integer tokens (R60, R61). `parseInt` goes through the token as the grammar does: an optional sign, then digits
that denote a number. The canonical tokens are among the tokens it reads. -/

namespace Sys2Proof

open Sys2Proof.Machine Sys2Proof.Claims

/-! ### Digits (R60) -/

theorem ofNat_mem_digits {k : Nat} (h : k < 10) : Char.ofNat (48 + k) ∈ "0123456789".toList := by
  interval_cases k <;> decide

/-- The ten digits are the characters 48 to 57. -/
theorem mem_digits_iff {c : Char} : c ∈ "0123456789".toList ↔ 48 ≤ c.toNat ∧ c.toNat ≤ 57 := by
  constructor
  · have hall : "0123456789".toList.all (fun d => decide (48 ≤ d.toNat ∧ d.toNat ≤ 57)) = true := by decide
    exact fun hc => of_decide_eq_true (List.all_eq_true.mp hall c hc)
  · rintro ⟨hlo, hhi⟩
    obtain ⟨k, hk⟩ := Nat.exists_eq_add_of_le hlo
    rw [← Char.ofNat_toNat c, hk]
    exact ofNat_mem_digits (by omega)

theorem digitValue_eq_some {c : Char} {d : Nat} :
    digitValue c = some d ↔ c ∈ "0123456789".toList ∧ c.toNat - '0'.toNat = d := by
  rw [mem_digits_iff]
  unfold digitValue
  split <;> simp_all

/-- The number that `n`, followed by the digits of the list, denotes. -/
def digitsValueFrom (n : Nat) (ds : List Char) : Nat := ds.foldl (fun n c => 10 * n + (c.toNat - '0'.toNat)) n

theorem digitsValueFrom_zero (ds : List Char) : digitsValueFrom 0 ds = digitsValue ds := rfl

theorem parseDigits_eq_some {n m : Nat} {ds : List Char} :
    parseDigits n ds = some m ↔ (∀ c ∈ ds, c ∈ "0123456789".toList) ∧ digitsValueFrom n ds = m := by
  induction ds generalizing n with
  | nil => simp [parseDigits, digitsValueFrom]
  | cons c cs ih =>
    rw [List.forall_mem_cons]
    cases hd : digitValue c with
    | none =>
      have hc : c ∉ "0123456789".toList := fun hc => by
        rw [digitValue_eq_some.mpr ⟨hc, rfl⟩] at hd
        cases hd
      simp only [parseDigits, hd, hc, false_and, reduceCtorEq]
    | some d =>
      obtain ⟨hc, rfl⟩ := digitValue_eq_some.mp hd
      simp only [parseDigits, hd, ih, hc, true_and]
      rfl

theorem parseNat_eq_some {ds : List Char} {n : Nat} :
    parseNat ds = some n ↔ ds ≠ [] ∧ (∀ c ∈ ds, c ∈ "0123456789".toList) ∧ digitsValue ds = n := by
  cases ds with
  | nil => simp [parseNat]
  | cons c cs =>
    rw [parseNat, parseDigits_eq_some, digitsValueFrom_zero]
    exact (and_iff_right (List.cons_ne_nil c cs)).symm

/-! ### The sign (R60) -/

theorem parseDecimal_minus (ds : List Char) : parseDecimal ('-' :: ds) = (parseNat ds).map (fun n : Nat => -(n : Int)) := rfl

theorem parseDecimal_plus (ds : List Char) : parseDecimal ('+' :: ds) = (parseNat ds).map (fun n : Nat => (n : Int)) := rfl

theorem parseDecimal_unsigned {c : Char} (cs : List Char) (hm : c ≠ '-') (hp : c ≠ '+') :
    parseDecimal (c :: cs) = (parseNat (c :: cs)).map (fun n : Nat => (n : Int)) := by
  simp only [parseDecimal, if_neg hm, if_neg hp]

/-- A list of digits has no sign, so it reads as the number it denotes. -/
theorem parseDecimal_of_parseNat {t : Token} {n : Nat} (h : parseNat t = some n) : parseDecimal t = some (n : Int) := by
  cases t with
  | nil => cases h
  | cons c cs =>
    have hc : c ∈ "0123456789".toList := (parseNat_eq_some.mp h).2.1 c List.mem_cons_self
    rw [parseDecimal_unsigned cs (by rintro rfl; revert hc; decide) (by rintro rfl; revert hc; decide), h, Option.map_some]

/-- `parseDecimal` reads an optional sign, then digits. -/
theorem parseDecimal_eq_some {t : Token} {v : Int} :
    parseDecimal t = some v ↔ ∃ (sign ds : List Char) (n : Nat), (sign = [] ∨ sign = ['+'] ∨ sign = ['-']) ∧
      t = sign ++ ds ∧ parseNat ds = some n ∧ v = if sign = ['-'] then -(n : Int) else (n : Int) := by
  constructor
  · intro h
    cases t with
    | nil => cases h
    | cons c cs =>
      by_cases hm : c = '-'
      · subst hm
        obtain ⟨n, hn, rfl⟩ := Option.map_eq_some_iff.mp (parseDecimal_minus cs ▸ h)
        exact ⟨['-'], cs, n, .inr (.inr rfl), rfl, hn, rfl⟩
      · by_cases hp : c = '+'
        · subst hp
          obtain ⟨n, hn, rfl⟩ := Option.map_eq_some_iff.mp (parseDecimal_plus cs ▸ h)
          exact ⟨['+'], cs, n, .inr (.inl rfl), rfl, hn, rfl⟩
        · obtain ⟨n, hn, rfl⟩ := Option.map_eq_some_iff.mp (parseDecimal_unsigned cs hm hp ▸ h)
          exact ⟨[], c :: cs, n, .inl rfl, rfl, hn, rfl⟩
  · rintro ⟨_, ds, n, rfl | rfl | rfl, rfl, hn, rfl⟩
    · exact parseDecimal_of_parseNat hn
    · exact (parseDecimal_plus ds).trans (by rw [hn]; rfl)
    · exact (parseDecimal_minus ds).trans (by rw [hn]; rfl)

/-- Settles O19: `parseDecimal` reads the sign and `parseNat` the digits, and `parseInt` adds the range. -/
theorem parseIntAcceptsTheGrammar : Obligations.ParseIntAcceptsTheGrammar := by
  intro t v
  rw [parseInt_eq_some, and_comm, parseDecimal_eq_some]
  refine and_congr_right fun _ => exists_congr fun sign => exists_congr fun ds => ⟨?_, ?_⟩
  · rintro ⟨n, hsign, ht, hn, hv⟩
    obtain ⟨hne, hdigits, rfl⟩ := parseNat_eq_some.mp hn
    exact ⟨hsign, ht, hne, hdigits, hv⟩
  · rintro ⟨hsign, ht, hne, hdigits, hv⟩
    exact ⟨digitsValue ds, hsign, ht, parseNat_eq_some.mpr ⟨hne, hdigits, rfl⟩, hv⟩

/-! ### The canonical token (R61) -/

theorem dec_of_nonneg {v : Int} (h : 0 ≤ v) : dec v = decNat v.natAbs := if_neg (not_lt.mpr h)

theorem dec_of_neg {v : Int} (h : v < 0) : dec v = '-' :: dec (-v) := by
  rw [dec_of_nonneg (v := -v) (by omega), Int.natAbs_neg]
  exact if_pos h

theorem decNat_mem_digits (n : Nat) : ∀ c ∈ decNat n, c ∈ "0123456789".toList := by
  intro c hc
  obtain ⟨k, hk, rfl⟩ := decNat_digit n c hc
  exact ofNat_mem_digits hk

theorem outputText_emit (s : State) (v : Word) :
    outputText (s.emit v) = outputText s ++ dec v.toInt ++ ['\n'] := by
  simp [outputText]

/-- Settles O20: the shape of `dec` comes from the digits of `decNat`, and its readers and writers follow. -/
theorem decIsCanonicalAndReadsBack : Obligations.DecIsCanonicalAndReadsBack := by
  refine ⟨fun v hv => parseInt_eq_some.mpr ⟨parseDecimal_dec v, hv⟩, fun v => dec_of_neg, fun v hv => ?_, fun v hv => ?_,
    rfl, fun s n v => ?_, outputText_emit⟩
  · rw [dec_of_nonneg hv]
    exact ⟨decNat_ne_nil _, decNat_mem_digits _⟩
  · rw [dec_of_nonneg hv.le]
    exact decNat_head (by omega)
  · rw [cell_memWrite_same, List.head?_cons]

end Sys2Proof
end

section
/-! PROOFS. One cycle (R70 to R77): where fetch, dispatch and operand decoding end it, what the handler leaves in `pc`, and
that every instruction answers a next state. -/

namespace Sys2Proof.Machine

open Sys2Proof.Claims

variable {s t : State}

/-- `State.raise` is the fault effect of R103. -/
theorem raised_raise (f : FaultInfo) (s : State) : Raised f s (s.raise f) :=
  ⟨reg_raise_halt s f, fun _ => reg_raise_ne s f, fun _ => rfl, rfl, rfl, rfl⟩

/-! ### Fetch and decoding faults (R63, R70, R72, R75) -/

theorem fetchDecode_of_fetch_eq_none (h : fetch s = none) : fetchDecode s = .ends .invalidProgramCounter := by
  simp only [fetchDecode, h]

/-- A cell in the array that does not decode leaves the cycle where its fault says, an empty cell included. -/
theorem fetchDecode_bad {f : DecodeFault} (hp : inArray (s.reg .pc).toInt)
    (hc : decodeCell (s.cell (s.reg .pc).toInt.toNat) = .bad f) : fetchDecode s = fetchedFault f := by
  cases hcell : s.cell (s.reg .pc).toInt.toNat with
  | nil =>
    rw [hcell] at hc
    cases hc
    exact fetchDecode_of_fetch_eq_none (fetch_empty hcell)
  | cons tok ts =>
    rw [hcell] at hc
    simp only [fetchDecode, fetch_cell hp hcell, hc]

/-- If the operands do not decode, the fault is the handler's, so that the cycle goes on to its end (R63, R75). -/
def FaultsInHandler (d : Decoded) : Prop := ∀ f, d = .bad f → fetchedFault f = .handlerFault (decodeFaultInfo f)

theorem faultsInHandler_instr (i : Instr) : FaultsInHandler (.instr i) := by
  rintro f ⟨⟩

theorem faultsInHandler_withReg (op : Token) (ts : List Token) {k : Reg → List Token → Decoded}
    (hk : ∀ r rest, FaultsInHandler (k r rest)) : FaultsInHandler (withReg op ts k) := by
  cases ts with
  | nil => rintro f ⟨⟩; rfl
  | cons tok rest =>
    cases hr : Reg.ofToken tok with
    | none => rw [withReg_none _ _ hr]; rintro f ⟨⟩; rfl
    | some r => rw [withReg_some _ _ hr]; exact hk r rest

theorem faultsInHandler_withInt (op : Token) (ts : List Token) {k : Int → List Token → Decoded}
    (hk : ∀ v rest, FaultsInHandler (k v rest)) : FaultsInHandler (withInt op ts k) := by
  cases ts with
  | nil => rintro f ⟨⟩; rfl
  | cons tok rest =>
    cases hv : parseInt tok with
    | none => rw [withInt_none _ _ hv]; rintro f ⟨⟩; rfl
    | some v => rw [withInt_some _ _ hv]; exact hk v rest

theorem faultsInHandler_decodeOperands (o : Opcode) (ts : List Token) : FaultsInHandler (decodeOperands o ts) := by
  cases o with
  | ret | halt => exact faultsInHandler_instr _
  | out | push | pop => exact faultsInHandler_withReg _ _ fun _ _ => faultsInHandler_instr _
  | mov | loadr | storer | add | sub | mod =>
    exact faultsInHandler_withReg _ _ fun _ _ => faultsInHandler_withReg _ _ fun _ _ => faultsInHandler_instr _
  | movv | load =>
    exact faultsInHandler_withReg _ _ fun _ _ => faultsInHandler_withInt _ _ fun _ _ => faultsInHandler_instr _
  | store | jnz =>
    exact faultsInHandler_withInt _ _ fun _ _ => faultsInHandler_withReg _ _ fun _ _ => faultsInHandler_instr _
  | call | jmp => exact faultsInHandler_withInt _ _ fun _ _ => faultsInHandler_instr _

/-- An operand that does not decode: the fault is raised, and the end of the cycle follows. -/
theorem step_decode_handlerFault {f : DecodeFault} (hs : AboutToCycle s) (hp : inArray (s.reg .pc).toInt)
    (hc : decodeCell (s.cell (s.reg .pc).toInt.toNat) = .bad f)
    (hf : fetchedFault f = .handlerFault (decodeFaultInfo f)) :
    step s = .next (s.raise (decodeFaultInfo f)).endOfCycle :=
  step_handlerFault hs.1 hs.2 ((fetchDecode_bad hp hc).trans hf)

/-! ### Every instruction and every step answers a next state -/

theorem exec_answers_next (i : Instr) (s : State) : ∃ t, exec i s = .next t := by
  cases i with
  | mov | movv | load | loadr | store | storer | add | sub | out | jmp | halt => exact ⟨_, rfl⟩
  | mod r1 r2 =>
    by_cases hz : s.reg r2 = 0
    · exact ⟨_, exec_mod_zero hz⟩
    · exact ⟨_, exec_mod_nonzero hz⟩
  | jnz target test =>
    by_cases hz : s.reg test = 0
    · exact ⟨_, exec_jnz_not_taken hz⟩
    · exact ⟨_, exec_jnz_taken hz⟩
  | call target =>
    cases hf : stackFault s.nextTop with
    | none => exact ⟨_, exec_call_inArray (stackFault_none.mp hf)⟩
    | some f => exact ⟨_, exec_call_fault hf⟩
  | push r =>
    cases hf : stackFault s.nextTop with
    | none => exact ⟨_, exec_push_inArray (stackFault_none.mp hf)⟩
    | some f => exact ⟨_, exec_push_fault hf⟩
  | ret =>
    cases hr : readTop s with
    | ok v => exact ⟨_, exec_ret_ok hr⟩
    | error f => exact ⟨_, exec_ret_error hr⟩
  | pop dst =>
    cases hr : readTop s with
    | ok v => exact ⟨_, exec_pop_ok hr⟩
    | error f => exact ⟨_, exec_pop_error hr⟩

theorem step_answers_next (s : State) : ∃ t, step s = .next t := by
  cases hr : s.run with
  | halted => exact ⟨s, step_halted hr⟩
  | running =>
    by_cases hh : s.reg .halt = 0
    · cases hf : fetchDecode s with
      | ends f => exact ⟨_, step_ends hr hh hf⟩
      | handlerFault f => exact ⟨_, step_handlerFault hr hh hf⟩
      | runs i =>
        obtain ⟨t, ht⟩ := exec_answers_next i s
        exact ⟨_, step_runs hr hh hf ht⟩
    · exact ⟨_, step_enterHalted hr hh⟩

/-! ### `pc` after the handler (R77) -/

variable {i : Instr}

/-- A register written, then `pc` advanced: with `pc` itself written, from the value just written. -/
theorem pc_setReg_advancePc (s : State) (dst : Reg) (v : Word) :
    (s.setReg dst v).advancePc.reg .pc = advanced (if dst = .pc then v else s.reg .pc) := by
  rw [reg_advancePc_pc, reg_setReg, advanced]
  simp only [eq_comm]

/-- The rows of R77's table that read their value from memory: the value written is the one read. -/
theorem pc_of_read_ok {r : Except FaultInfo Int} {dst : Reg} {v : Int} (hr : r = .ok v)
    (ht : t.reg .pc = advanced (if dst = .pc then wrap v else s.reg .pc)) :
    (dst ≠ .pc → t.reg .pc = advanced (s.reg .pc)) ∧
      (dst = .pc → ∀ w, r = .ok w → t.reg .pc = advanced (wrap w)) := by
  subst hr
  refine ⟨fun hne => by rw [ht, if_neg hne], fun heq w hw => ?_⟩
  cases hw
  rw [ht, if_pos heq]

theorem pcRule_of_completes (h : Completes s i t) : PcRule i s t := by
  cases h with
  | mov dst src => exact pc_setReg_advancePc s dst _
  | movv dst imm => exact pc_setReg_advancePc s dst _
  | load dst hv | loadr dst hv => exact pc_of_read_ok hv (pc_setReg_advancePc s dst _)
  | pop dst hv => exact pc_of_read_ok hv (by simp [advanced, reg_setReg, eq_comm])
  | add | sub | mod | halt => exact pc_setReg_advancePc s _ _
  | store | storer | out => exact reg_advancePc_pc _
  | push r hn => simp [PcRule, advanced]
  | call | jmp => exact reg_setReg_same _ .pc _
  | ret hv =>
    intro w hw
    rw [hv] at hw
    cases hw
    simp [reg_returnTo]
  | jnz_taken target hz => exact (reg_setReg_same s .pc _).trans (if_pos hz).symm
  | jnz_not_taken target hz => exact (reg_advancePc_pc s).trans (if_neg (not_not.mpr hz)).symm

/-- Neither a raised fault nor the write of `sp` before it, in a `call`, changes `pc`. -/
theorem exec_fault_pc (h : exec i s = .next t) (hl : t.faultLog ≠ s.faultLog) : t.reg .pc = s.reg .pc := by
  rcases exec_cases h with hc | ⟨f, rfl⟩ | ⟨_, f, -, -, rfl⟩
  · exact absurd hc.faultLog_eq hl
  · simp
  · simp

theorem exec_completes_of_faultLog_eq (h : exec i s = .next t) (hl : t.faultLog = s.faultLog) : Completes s i t := by
  obtain hc | ⟨u, f, rfl, -, hlog, -⟩ := exec_completes_or_raises h
  · exact hc
  · simp [hlog] at hl

end Sys2Proof.Machine

namespace Sys2Proof

open Sys2Proof.Machine

/-- Settles O30: the cell at `pc` is fetched and decoded, and its instruction runs. -/
theorem stepRunsTheDecodedInstruction : Obligations.StepRunsTheDecodedInstruction := by
  rintro s t i ⟨hrun, hhalt⟩ hp hc he
  exact step_runs hrun hhalt (fetchDecode_runs hp hc) he

/-- Settles O31: a fetch that gives no cell ends the cycle with its fault. -/
theorem fetchFaultEndsTheCycle : Obligations.FetchFaultEndsTheCycle := by
  refine ⟨fun s tok rest hp hc => fetch_cell hp hc, ?_⟩
  rintro s ⟨hrun, hhalt⟩ hfault
  have hnone : fetch s = none := hfault.elim fetch_outside fetch_empty
  exact ⟨_, step_ends hrun hhalt (fetchDecode_of_fetch_eq_none hnone), raised_raise _ s⟩

/-- Settles O32: dispatch on token 0, which is no opcode's name or that of one opcode, whose handler then decodes its operands. -/
theorem invalidOpcodeEndsTheCycle : Obligations.InvalidOpcodeEndsTheCycle := by
  intro s tok rest hs hp hcell
  constructor
  · intro hnot
    have hnone : Opcode.ofToken tok = none :=
      Option.eq_none_iff_forall_ne_some.mpr fun o ho => hnot o (Opcode.name_of_ofToken ho)
    have hc : decodeCell (s.cell (s.reg .pc).toInt.toNat) = .bad (.invalidOpcode tok) := by
      rw [hcell, decodeCell_not_opcode rest hnone]
    exact ⟨_, step_ends hs.1 hs.2 (fetchDecode_bad hp hc), raised_raise _ s⟩
  · rintro o rfl
    have hc : decodeCell (s.cell (s.reg .pc).toInt.toNat) = decodeOperands o rest := by
      rw [hcell, decodeCell_opcode]
    cases hops : decodeOperands o rest with
    | instr i =>
      obtain ⟨u, hu⟩ := exec_answers_next i s
      exact ⟨u, step_runs hs.1 hs.2 (fetchDecode_runs hp (hc.trans hops)) hu, .inl ⟨i, rfl, hu⟩⟩
    | bad f =>
      exact ⟨_, step_decode_handlerFault hs hp (hc.trans hops) (faultsInHandler_decodeOperands o rest f hops),
        .inr ⟨f, rfl, raised_raise _ s⟩⟩

/-- Settles O33: each of the three operand faults is one of the handler's (R75). -/
theorem operandFaultKeepsTheTick : Obligations.OperandFaultKeepsTheTick := by
  rintro s _ hs hp (⟨t, rfl, hc⟩ | ⟨t, rfl, hc⟩ | ⟨t, rfl, hc⟩)
  all_goals exact ⟨_, raised_raise _ s, step_decode_handlerFault hs hp hc rfl⟩

/-- Settles O48: a handler that logs a fault raised it with `pc` as it was; any other has completed. -/
theorem programCounterAfterTheHandler : Obligations.ProgramCounterAfterTheHandler := fun _ _ _ h =>
  ⟨exec_fault_pc h, fun hl => pcRule_of_completes (exec_completes_of_faultLog_eq h hl)⟩

end Sys2Proof
end

section
/-! PROOFS. The end of a run (R76). `runToHalt` takes the steps of `Core.run` until it sees `Halted`, where further steps answer
the same state. -/

namespace Sys2Proof.Machine

variable {s t : State}

theorem runToHalt_halted (h : s.run = .halted) (k : Nat) : runToHalt k s = some s := by
  cases k <;> simp [runToHalt, h]

theorem runToHalt_zero_running (h : s.run = .running) : runToHalt 0 s = none := by simp [runToHalt, h]

theorem runToHalt_succ (k : Nat) (hr : s.run = .running) (h : step s = .next t) :
    runToHalt (k + 1) s = runToHalt k t := by simp [runToHalt, hr, h]

theorem core_run_halted (h : s.run = .halted) (k : Nat) : core.run k s = .next s := by
  induction k with
  | zero => rfl
  | succ k ih => rw [core_run_succ k (step_halted h), ih]

theorem runToHalt_eq_some_iff_of_halted (h : s.run = .halted) (k : Nat) :
    runToHalt k s = some t ↔ core.run k s = .next t ∧ t.run = .halted := by
  rw [runToHalt_halted h, core_run_halted h]
  exact ⟨by rintro ⟨⟩; exact ⟨rfl, h⟩, by rintro ⟨⟨⟩, -⟩; rfl⟩

theorem runToHalt_eq_some_iff {k : Nat} : runToHalt k s = some t ↔ core.run k s = .next t ∧ t.run = .halted := by
  induction k generalizing s with
  | zero =>
    cases hr : s.run with
    | halted => exact runToHalt_eq_some_iff_of_halted hr 0
    | running =>
      rw [runToHalt_zero_running hr, core_run_zero]
      exact iff_of_false nofun (by rintro ⟨⟨⟩, ht⟩; rw [hr] at ht; cases ht)
  | succ k ih =>
    cases hr : s.run with
    | halted => exact runToHalt_eq_some_iff_of_halted hr (k + 1)
    | running =>
      obtain ⟨u, hu⟩ := step_answers_next s
      rw [runToHalt_succ k hr hu, core_run_succ k hu, ih]

/-- More fuel than the run needs changes nothing. -/
theorem runToHalt_add {k : Nat} (h : runToHalt k s = some t) (j : Nat) : runToHalt (k + j) s = some t := by
  induction k generalizing s with
  | zero =>
    obtain ⟨hst, ht⟩ := runToHalt_eq_some_iff.mp h
    cases hst
    exact runToHalt_halted ht _
  | succ k ih =>
    cases hr : s.run with
    | halted => rwa [runToHalt_halted hr] at h ⊢
    | running =>
      obtain ⟨u, hu⟩ := step_answers_next s
      rw [runToHalt_succ k hr hu] at h
      rw [Nat.add_right_comm, runToHalt_succ _ hr hu]
      exact ih h

theorem endedCleanly_iff (h : s.run = .halted) : endedCleanly s = true ↔ s.faultLog = [] := by
  simp [endedCleanly, h]

theorem endedByFault_iff (h : s.run = .halted) : endedByFault s = true ↔ s.faultLog ≠ [] := by
  simp [endedByFault, h]

end Sys2Proof.Machine

namespace Sys2Proof

open Sys2Proof.Machine

/-- Settles O57: by induction on the fuel; the final state is in `Halted`, so its log alone says how the run ended. -/
theorem runsUnderFuelEndHalted : Obligations.RunsUnderFuelEndHalted := by
  refine ⟨fun _ _ _ => runToHalt_eq_some_iff, fun _ j _ _ h => runToHalt_add h j, fun k s t h => ?_⟩
  have ht : t.run = .halted := (runToHalt_eq_some_iff.mp h).2
  exact ⟨endedCleanly_iff ht, endedByFault_iff ht⟩

end Sys2Proof
end

section
/-! PROOFS. Data movement (40_data_movement.md). The six instructions share three operand formats and three effects: a register
written and `pc` advanced, a load from an address, and a store to one. Each of these is shown once, whatever the opcode and
wherever the address comes from. -/

namespace Sys2Proof.Machine

open Sys2Proof.Claims

/-! ### Operand formats (R57, R58, R60, R62, R63) -/

section
variable {o : Opcode}

/-- A handler that decodes two registers has format `RR`, faults included. -/
theorem decodesRR_of_decodeOperands {mk : Reg → Reg → Instr} (h : ∀ ts, decodeOperands o ts = decodeRR o.name mk ts) :
    DecodesRR o.name mk := by
  simp only [DecodesRR, decodeCell_opcode, h, decodeRR]
  refine ⟨fun t1 t2 r1 r2 rest h1 h2 => ?_, withReg_nil _ _, fun t1 rest h1 => withReg_none rest _ h1,
    fun t1 r1 h1 => ?_, fun t1 t2 r1 rest h1 h2 => ?_⟩
  · rw [withReg_some _ _ h1, withReg_some _ _ h2]
  · rw [withReg_some _ _ h1, withReg_nil]
  · rw [withReg_some _ _ h1, withReg_none _ _ h2]

/-- A handler that decodes a register, then a literal, has format `RI`, faults included. -/
theorem decodesRI_of_decodeOperands {mk : Reg → Int → Instr} (h : ∀ ts, decodeOperands o ts = decodeRI o.name mk ts) :
    DecodesRI o.name mk := by
  simp only [DecodesRI, decodeCell_opcode, h, decodeRI]
  refine ⟨fun t1 t2 r v rest h1 h2 => ?_, withReg_nil _ _, fun t1 rest h1 => withReg_none rest _ h1,
    fun t1 r h1 => ?_, fun t1 t2 r rest h1 h2 => ?_⟩
  · rw [withReg_some _ _ h1, withInt_some _ _ h2]
  · rw [withReg_some _ _ h1, withInt_nil]
  · rw [withReg_some _ _ h1, withInt_none _ _ h2]

/-- A handler that decodes a literal, then a register, has format `IR`, faults included. -/
theorem decodesIR_of_decodeOperands {mk : Int → Reg → Instr} (h : ∀ ts, decodeOperands o ts = decodeIR o.name mk ts) :
    DecodesIR o.name mk := by
  simp only [DecodesIR, decodeCell_opcode, h, decodeIR]
  refine ⟨fun t1 t2 v r rest h1 h2 => ?_, withInt_nil _ _, fun t1 rest h1 => withInt_none rest _ h1,
    fun t1 v h1 => ?_, fun t1 t2 v rest h1 h2 => ?_⟩
  · rw [withInt_some _ _ h1, withReg_some _ _ h2]
  · rw [withInt_some _ _ h1, withReg_nil]
  · rw [withInt_some _ _ h1, withReg_none _ _ h2]

end

/-! ### Effects -/

/-- A register written, then `pc` advanced, is the effect `Advanced`, for `dst = pc` too (R77). -/
theorem advanced_setReg_advancePc (s : State) (dst : Reg) (v : Word) : Advanced dst v s (s.setReg dst v).advancePc := by
  refine ⟨pc_setReg_advancePc s dst v, fun hdst => ?_, fun q hq hpc => ?_, fun _ => rfl, rfl, rfl, rfl⟩
  · rw [reg_advancePc_ne _ hdst, reg_setReg_same]
  · rw [reg_advancePc_ne _ hpc, reg_setReg_ne _ _ hq]

theorem wrap_toInt_of_parseInt {t : Token} {v : Int} (h : parseInt t = some v) : (wrap v).toInt = v :=
  wrap_toInt (parseInt_eq_some.mp h).2

variable {i : Instr} {s : State}

/-- The shared load, case by case as `readData` comes out (R80, R81). -/
theorem loadsFrom_of_exec {dst : Reg} {a : Int} (h : exec i s = .next (loadInto dst a s)) : LoadsFrom i dst a s := by
  have hfault {f : FaultInfo} (hr : readData a s = .error f) : ∃ t, exec i s = .next t ∧ Raised f s t :=
    ⟨_, h, loadInto_error hr ▸ raised_raise f s⟩
  refine ⟨fun tok rest v ha hc hv => ?_, fun ha => hfault (readData_outside ha), fun ha hc => hfault ?_,
    fun tok rest ha hc hv => hfault ?_⟩
  · have hr : readData a s = .ok v := by rw [readData_inArray ha, hc, cellInt_some hv]
    exact ⟨_, h, loadInto_ok hr ▸ advanced_setReg_advancePc s dst (wrap v), wrap_toInt_of_parseInt hv⟩
  · rw [readData_inArray ha, hc, cellInt_nil]
  · rw [readData_inArray ha, hc, cellInt_none hv]

/-- The shared store: a `MemWrite` and the advance inside the array, the fault outside (R82, R83). -/
theorem storesTo_of_exec {src : Reg} {a : Int} (h : exec i s = .next (storeFrom a src s)) : StoresTo i src a s := by
  refine ⟨fun ha => ?_, fun ha => ⟨_, h, storeFrom_outside ha ▸ raised_raise _ s⟩⟩
  rw [storeFrom_inArray ha] at h
  exact ⟨_, h, ⟨cell_memWrite_same s _ _, fun k hk => cell_memWrite_ne s _ hk⟩, reg_advancePc_pc _,
    fun q hq => reg_advancePc_ne _ hq, rfl, rfl, rfl⟩

end Sys2Proof.Machine

namespace Sys2Proof

open Sys2Proof.Machine

/-- Settles O3: the shared load, at the literal. -/
theorem loadReadsLiteralAddress : Obligations.LoadReadsLiteralAddress :=
  ⟨decodesRI_of_decodeOperands (o := .load) fun _ => rfl, fun _ _ _ => loadsFrom_of_exec rfl⟩

/-- Settles O4: the shared load, at the value `addrReg` has before `dst` is written. -/
theorem loadrReadsRegisterAddress : Obligations.LoadrReadsRegisterAddress :=
  ⟨decodesRR_of_decodeOperands (o := .loadr) fun _ => rfl, fun _ _ _ => loadsFrom_of_exec rfl⟩

/-- Settles O5: the shared store, at the literal. -/
theorem storeWritesLiteralAddress : Obligations.StoreWritesLiteralAddress :=
  ⟨decodesIR_of_decodeOperands (o := .store) fun _ => rfl, fun _ _ _ => storesTo_of_exec rfl⟩

/-- Settles O6: the shared store, at the value of `addrReg`. -/
theorem storerWritesRegisterAddress : Obligations.StorerWritesRegisterAddress :=
  ⟨decodesRR_of_decodeOperands (o := .storer) fun _ => rfl, fun _ _ _ => storesTo_of_exec rfl⟩

/-- Settles O1: `src` is read before `dst` is written, and `pc` advances from the value then in it. -/
theorem movCopiesRegister : Obligations.MovCopiesRegister :=
  ⟨decodesRR_of_decodeOperands (o := .mov) fun _ => rfl, fun dst src s =>
    ⟨_, rfl, advanced_setReg_advancePc s dst (s.reg src)⟩⟩

/-- Settles O2: a literal in range is written exactly. -/
theorem movvLoadsImmediate : Obligations.MovvLoadsImmediate :=
  ⟨decodesRI_of_decodeOperands (o := .movv) fun _ => rfl, fun dst imm s himm =>
    ⟨_, rfl, advanced_setReg_advancePc s dst (wrap imm), wrap_toInt himm⟩⟩

end Sys2Proof
end

section
/-! PROOFS. Arithmetic (41_arithmetic.md). `add`, `sub` and `mod` with a nonzero divisor write a narrowed exact result to `acc`
and advance; the remainder of `mod` is smaller than a register value, so that narrowing leaves it as it is (R86). -/

namespace Sys2Proof

theorem toInt_eq_zero_iff {w : Word} : w.toInt = 0 ↔ w = 0 := BitVec.toInt_inj (y := 0)

/-- What is smaller in magnitude than some register value is in the range. -/
theorem inRange_of_natAbs_lt_toInt {v : Int} {w : Word} (h : v.natAbs < w.toInt.natAbs) : inRange v := by
  have hw : inRange w.toInt := toInt_inRange w
  simp only [inRange, Config.intMin, Config.intMax, Config.W] at hw ⊢
  omega

theorem natAbs_tmod_lt (n : Int) {d : Int} (hd : d ≠ 0) : (n.tmod d).natAbs < d.natAbs := by
  rw [Int.natAbs_tmod]
  exact Nat.mod_lt _ (Int.natAbs_pos.mpr hd)

theorem tmod_eq_zero_or_pos_iff (n d : Int) : n.tmod d = 0 ∨ (0 < n.tmod d ↔ 0 < n) := by
  by_cases hdvd : d ∣ n
  · exact .inl (Int.tmod_eq_zero_of_dvd hdvd)
  · have hsign : (n.tmod d).sign = n.sign := by rw [Int.sign_tmod, if_neg hdvd]
    exact .inr (by rw [← Int.sign_eq_one_iff_pos, hsign, Int.sign_eq_one_iff_pos])

end Sys2Proof

namespace Sys2Proof.Machine

theorem advanced_toAcc (s : State) (v : Int) : Advanced .acc (wrap v) s (s.toAcc v) :=
  advanced_setReg_advancePc s .acc (wrap v)

variable {r1 r2 : Reg} {s : State}

/-- A nonzero divisor: `acc` holds the remainder itself, without a wrap (R86). -/
theorem exec_mod_writes_tmod (h : s.reg r2 ≠ 0) :
    ∃ t v, exec (.mod r1 r2) s = .next t ∧ Advanced .acc v s t ∧ v.toInt = (s.reg r1).toInt.tmod (s.reg r2).toInt :=
  have hlt := natAbs_tmod_lt (s.reg r1).toInt (mt toInt_eq_zero_iff.mp h)
  ⟨_, _, exec_mod_nonzero h, advanced_toAcc s _, wrap_toInt (inRange_of_natAbs_lt_toInt hlt)⟩

/-- The remainders of the sign table (R88). -/
theorem modTable_eq_tmod : ∀ row ∈ Claims.modTable, row.2.1 ≠ 0 ∧ row.1.tmod row.2.1 = row.2.2 := by decide

end Sys2Proof.Machine

namespace Sys2Proof

open Sys2Proof.Machine

/-- Settles O9: the exact remainder, its bound and its sign are those of `Int.tmod`. -/
theorem modWritesTruncatingRemainder : Obligations.ModWritesTruncatingRemainder := by
  refine ⟨decodesRR_of_decodeOperands (o := .mod) fun _ => rfl, fun r1 r2 s h => ?_, fun r1 r2 s h =>
    ⟨_, exec_mod_zero h, raised_raise _ s⟩⟩
  obtain ⟨t, v, hexec, hadv, hv⟩ := exec_mod_writes_tmod (r1 := r1) h
  refine ⟨t, v, hexec, hadv, ?_⟩
  rw [hv]
  exact ⟨Int.tmod_def _ _, natAbs_tmod_lt _ (mt toInt_eq_zero_iff.mp h), tmod_eq_zero_or_pos_iff _ _⟩

/-- Settles O28: every row has a nonzero divisor and its remainder is the general one; a zero divisor raises before `acc` is written. -/
theorem modSignTable : Obligations.ModSignTable := by
  refine ⟨fun r1 r2 s row hrow h1 h2 => ?_, fun r1 r2 s h => ?_⟩
  · obtain ⟨hd, hrem⟩ := modTable_eq_tmod row hrow
    have hne : s.reg r2 ≠ 0 := mt toInt_eq_zero_iff.mpr (h2 ▸ hd)
    obtain ⟨t, v, hexec, ⟨_, hacc, _⟩, hv⟩ := exec_mod_writes_tmod (r1 := r1) hne
    exact ⟨t, hexec, by rw [hacc (by decide), hv, h1, h2, hrem]⟩
  · exact ⟨_, exec_mod_zero (toInt_eq_zero_iff.mp h), reg_raise_ne s _ (by decide), reg_raise_halt s _, raise_faultLog s _⟩

/-- Settles O7: the handler is `toAcc` at the exact sum of the old values. -/
theorem addWritesWrappedSum : Obligations.AddWritesWrappedSum :=
  ⟨decodesRR_of_decodeOperands (o := .add) fun _ => rfl, fun _ _ s => ⟨_, rfl, advanced_toAcc s _⟩⟩

/-- Settles O8: the handler is `toAcc` at the exact difference of the old values. -/
theorem subWritesWrappedDifference : Obligations.SubWritesWrappedDifference :=
  ⟨decodesRR_of_decodeOperands (o := .sub) fun _ => rfl, fun _ _ s => ⟨_, rfl, advanced_toAcc s _⟩⟩

end Sys2Proof
end

section
/-! PROOFS. The call stack (42_call_stack.md). `call` and `push` write at `sp + 1` and `ret` and `pop` read at `sp`, each after its
bounds check. An address that passes the check is in the range, and so is the `sp` one below it, so that `sp` moves exactly; and
the decimal token a stack write stores reads back as its value. -/

namespace Sys2Proof

open Sys2Proof.Machine Sys2Proof.Claims

/-! ### Operand formats (R57, R58, R60, R62, R63) -/

variable {o : Opcode}

/-- A handler that decodes one register has format `R`, faults included. -/
theorem decodesR_of_decodeOperands {mk : Reg → Instr} (h : ∀ ts, decodeOperands o ts = decodeR o.name mk ts) :
    DecodesR o.name mk := by
  simp only [DecodesR, decodeCell_opcode, h, decodeR]
  exact ⟨fun _ _ rest hr => withReg_some rest _ hr, withReg_nil _ _, fun _ rest hr => withReg_none rest _ hr⟩

/-- A handler that decodes one literal has format `I`, faults included. -/
theorem decodesI_of_decodeOperands {mk : Int → Instr} (h : ∀ ts, decodeOperands o ts = decodeI o.name mk ts) :
    DecodesI o.name mk := by
  simp only [DecodesI, decodeCell_opcode, h, decodeI]
  exact ⟨fun _ _ rest hv => withInt_some rest _ hv, withInt_nil _ _, fun _ rest hv => withInt_none rest _ hv⟩

end Sys2Proof

namespace Sys2Proof.Machine

open Sys2Proof.Claims

variable {s t : State} {i : Instr}

/-! ### `sp` moves exactly (R93) -/

/-- All that a stack instruction can move `sp` to, from `-1` up to `MEM_SIZE`, is in the range. -/
theorem inRange_of_le_memSize {a : Int} (hlo : -1 ≤ a) (hhi : a ≤ (Config.memSize : Int)) : inRange a := by
  simp only [inRange, Config.memSize, Config.intMin, Config.intMax, Config.W] at *
  omega

theorem wrap_toInt_of_inArray {a : Int} (h : inArray a) : (wrap a).toInt = a := wrap_toInt (inRange_of_inArray h)

theorem wrap_pred_toInt_of_inArray {a : Int} (h : inArray a) : (wrap (a - 1)).toInt = a - 1 :=
  wrap_toInt (inRange_of_le_memSize (Int.sub_le_sub_right h.1 1) ((sub_one_lt a).trans h.2).le)

theorem wrap_nextTop_toInt (h : inArray s.nextTop) : (wrap s.nextTop).toInt = (s.reg .sp).toInt + 1 :=
  wrap_toInt_of_inArray h

/-- A stack read undoes the move of `sp` that a stack write made. -/
theorem wrap_nextTop_pred (h : inArray s.nextTop) : wrap ((wrap s.nextTop).toInt - 1) = s.reg .sp := by
  rw [wrap_nextTop_toInt h, add_sub_cancel_right, wrap_of_toInt]

/-! ### Reads of the top of the stack (R42, R90, R92) -/

theorem readTop_of_parseInt {tok : Token} {rest : List Token} {v : Int} (hsp : inArray (s.reg .sp).toInt)
    (hc : s.cell (s.reg .sp).toInt.toNat = tok :: rest) (hv : parseInt tok = some v) : readTop s = .ok v := by
  rw [readTop_inArray hsp, hc, cellInt_some hv]

/-- A read that succeeds has passed the bounds check. -/
theorem inArray_of_readTop_ok {v : Int} (h : readTop s = .ok v) : inArray (s.reg .sp).toInt := by
  cases hf : stackFault (s.reg .sp).toInt with
  | none => exact stackFault_none.mp hf
  | some f => rw [readTop_fault hf] at h; cases h

theorem parseInt_dec {v : Int} (hv : inRange v) : parseInt (dec v) = some v :=
  parseInt_dec_of_literalWf (literalWf_iff.mpr hv)

/-- The top of the stack holds the token of a value in range, at address `a`: the value reads back. -/
theorem readTop_of_dec {a v : Int} {rest : List Token} (ha : inArray a) (hv : inRange v)
    (hsp : s.reg .sp = wrap a) (hc : s.cell a.toNat = dec v :: rest) : readTop s = .ok v := by
  have hspa : (s.reg .sp).toInt = a := by rw [hsp, wrap_toInt_of_inArray ha]
  exact readTop_of_parseInt (by rwa [hspa]) (by rwa [hspa]) (parseInt_dec hv)

/-- An instruction that raises the fault of its stack read has the four faults of that read, in the order of the checks. -/
theorem topReadFaults_of_exec (h : ∀ f, readTop s = .error f → exec i s = .next (s.raise f)) : TopReadFaults i s := by
  have hfault {f : FaultInfo} (hr : readTop s = .error f) : ∃ t, exec i s = .next t ∧ Raised f s t :=
    ⟨_, h f hr, raised_raise f s⟩
  refine ⟨fun hlo => hfault (readTop_fault (stackFault_below hlo)), fun hhi => hfault (readTop_fault (stackFault_above hhi)),
    fun hsp hc => hfault ?_, fun tok rest hsp hc hv => hfault ?_⟩
  · rw [readTop_inArray hsp, hc, cellInt_nil]
  · rw [readTop_inArray hsp, hc, cellInt_none hv]

/-! ### Stack writes (R41, R89, R91) -/

theorem stored_memWrite (s : State) (n : Nat) (v : Int) : Stored n v s (s.memWrite n v) :=
  ⟨cell_memWrite_same s n v, fun _ ha => cell_memWrite_ne s v ha⟩

/-! ### The bounds of `sp` (R93) -/

/-- `sp` is where the stack instructions keep it: `-1` for the empty stack, else the address of the top cell. -/
def SpInBounds (s : State) : Prop := -1 ≤ (s.reg .sp).toInt ∧ (s.reg .sp).toInt < (Config.memSize : Int)

theorem spInBounds_raise (h : SpInBounds s) (f : FaultInfo) : SpInBounds (s.raise f) := by
  rwa [SpInBounds, reg_raise_ne s f (by decide)]

/-- A stack write in the array leaves `sp` at the address written. -/
theorem spInBounds_of_stack_write (hn : inArray s.nextTop) (ht : t.reg .sp = wrap s.nextTop) : SpInBounds t := by
  rw [SpInBounds, ht, wrap_toInt_of_inArray hn]
  exact ⟨le_trans (by decide) hn.1, hn.2⟩

/-- A stack read in the array leaves `sp` one below the address read. -/
theorem spInBounds_of_stack_read (hsp : inArray (s.reg .sp).toInt) (ht : t.reg .sp = wrap ((s.reg .sp).toInt - 1)) :
    SpInBounds t := by
  rw [SpInBounds, ht, wrap_pred_toInt_of_inArray hsp]
  exact ⟨Int.sub_le_sub_right hsp.1 1, lt_trans (sub_one_lt _) hsp.2⟩

/-- `ret`, `push`, and `pop` to another register than `sp`, faults included. -/
theorem exec_spInBounds (hs : SpInBounds s) (hi : i = .ret ∨ (∃ r, i = .push r) ∨ ∃ dst, dst ≠ .sp ∧ i = .pop dst)
    (h : exec i s = .next t) : SpInBounds t := by
  rcases exec_cases h with hc | ⟨f, rfl⟩ | ⟨target, f, rfl, -⟩
  · obtain rfl | ⟨r, rfl⟩ | ⟨dst, hdst, rfl⟩ := hi
    · cases hc with
      | ret hv => exact spInBounds_of_stack_read (inArray_of_readTop_ok hv) (by simp [reg_returnTo])
    · cases hc with
      | push r hn => exact spInBounds_of_stack_write hn (by simp)
    · cases hc with
      | pop dst hv => exact spInBounds_of_stack_read (inArray_of_readTop_ok hv) (by simp [hdst.symm])
  · exact spInBounds_raise hs f
  · simp at hi

/-- `call` moves `sp` up by one, whether or not its check passes (D13). -/
theorem exec_call_sp {target : Int} (h : exec (.call target) s = .next t) : t.reg .sp = wrap s.nextTop := by
  cases hf : stackFault s.nextTop with
  | none => rw [exec_call_inArray (stackFault_none.mp hf)] at h; cases h; simp
  | some f => rw [exec_call_fault hf] at h; cases h; simp

/-- From its bounds `sp` goes up to `MEM_SIZE` at most, and there the check of the `call` has failed. -/
theorem exec_call_sp_bounds {target : Int} (hs : SpInBounds s) (h : exec (.call target) s = .next t) :
    -1 ≤ (t.reg .sp).toInt ∧ (t.reg .sp).toInt ≤ (Config.memSize : Int) ∧
      ((t.reg .sp).toInt = (Config.memSize : Int) → t.faultLog ≠ s.faultLog) := by
  obtain ⟨hlo, hhi⟩ := hs
  have hnlo : -1 ≤ s.nextTop := hlo.trans (lt_add_one _).le
  have hnhi : s.nextTop ≤ (Config.memSize : Int) := Int.add_one_le_of_lt hhi
  rw [exec_call_sp h, wrap_toInt (inRange_of_le_memSize hnlo hnhi)]
  refine ⟨hnlo, hnhi, fun htop => ?_⟩
  rw [exec_call_fault (stackFault_above htop.ge)] at h
  cases h
  simp

theorem inject_spInBounds (hs : SpInBounds s) : SpInBounds s.inject := by
  cases hf : stackFault s.nextTop with
  | none =>
    have hn := stackFault_none.mp hf
    exact spInBounds_of_stack_write hn (by simp [reg_inject hn])
  | some f =>
    rw [inject_fault hf]
    exact spInBounds_raise hs f

end Sys2Proof.Machine

namespace Sys2Proof

open Sys2Proof.Machine

/-- Settles O10: the stack check decides between the write with the jump and the fault, both after `sp` has moved. -/
theorem callPushesReturnAddress : Obligations.CallPushesReturnAddress := by
  refine ⟨decodesI_of_decodeOperands (o := .call) fun _ => rfl, fun target s =>
    ⟨fun (hn : inArray s.nextTop) ht => ?_, fun hn => ?_⟩⟩
  · have hregs := (Completes.call target hn).sameRegsExcept
    refine ⟨_, exec_call_inArray hn, ?_, ?_, fun q hpc hsp => hregs q (by simp [Claims.writes, hpc, hsp]),
      stored_memWrite s _ _, rfl, rfl, rfl⟩
    · rw [reg_setReg_same, wrap_toInt ht]
    · simpa using wrap_nextTop_toInt hn
  · cases hf : stackFault s.nextTop with
    | none => exact absurd (stackFault_none.mp hf) hn
    | some f =>
      have hlog {g : FaultInfo} (hg : stackFault s.nextTop = some g) : f = g := Option.some.inj (hf.symm.trans hg)
      refine ⟨_, exec_call_fault hf, by simp [State.nextTop], reg_raise_halt _ f, fun q hsp hhalt => by simp [hsp, hhalt],
        fun _ => rfl, rfl, rfl, fun hhi => ?_, fun hlo => ?_⟩
      · simp [hlog (stackFault_above hhi), State.nextTop]
      · simp [hlog (stackFault_below hlo), State.nextTop]

/-- Settles O11: the value read is in range, so `pc` takes it verbatim. -/
theorem retPopsProgramCounter : Obligations.RetPopsProgramCounter := by
  refine ⟨fun _ => decodeCell_opcode .ret _, fun s tok rest v hsp hc hv => ?_,
    fun s => topReadFaults_of_exec fun _ => exec_ret_error⟩
  refine ⟨_, exec_ret_ok (readTop_of_parseInt hsp hc hv), ?_, ?_, fun q hpc hq => by simp [reg_returnTo, hpc, hq],
    fun _ => rfl, rfl, rfl, rfl⟩
  · simpa [reg_returnTo] using wrap_toInt_of_parseInt hv
  · simpa [reg_returnTo] using wrap_pred_toInt_of_inArray hsp

/-- Settles O12: the register is read after `sp` has moved, and `sp + 1` in the array is exact. -/
theorem pushStoresRegister : Obligations.PushStoresRegister := by
  refine ⟨decodesR_of_decodeOperands (o := .push) fun _ => rfl, fun r s => ⟨fun (hn : inArray s.nextTop) => ?_,
    fun hhi => ⟨_, exec_push_fault (stackFault_above hhi), raised_raise _ s⟩,
    fun hlo => ⟨_, exec_push_fault (stackFault_below hlo), raised_raise _ s⟩⟩⟩
  have hregs := (Completes.push r hn).sameRegsExcept
  have hvalue : (if r = .sp then wrap s.nextTop else s.reg r).toInt = if r = .sp then s.nextTop else (s.reg r).toInt := by
    rw [apply_ite BitVec.toInt, wrap_toInt_of_inArray hn]
  refine ⟨_, exec_push_inArray hn, ?_, by simp, fun q hpc hsp => hregs q (by simp [Claims.writes, hpc, hsp]),
    hvalue ▸ stored_memWrite s _ _, rfl, rfl, rfl⟩
  simpa using wrap_nextTop_toInt hn

/-- Settles O13: `dst`, `sp` and `pc` are written in this order, each reading what the write before left. -/
theorem popWritesDestination : Obligations.PopWritesDestination := by
  refine ⟨decodesR_of_decodeOperands (o := .pop) fun _ => rfl, fun dst s tok rest v hsp hc hv => ?_,
    fun dst s => topReadFaults_of_exec fun _ => exec_pop_error⟩
  have hread := readTop_of_parseInt hsp hc hv
  have hregs := (Completes.pop dst hread).sameRegsExcept
  have hwrap := wrap_toInt_of_parseInt hv
  refine ⟨_, exec_pop_ok hread, fun hdsp hdpc => ?_, ?_, ?_,
    fun q hd hq hpc => hregs q (by simp [Claims.writes, hd, hq, hpc]), fun _ => rfl, rfl, rfl, rfl⟩
  · simp [hdsp, hdpc, hwrap]
  · simp [apply_ite BitVec.toInt, hwrap, eq_comm]
  · simp [reg_setReg, apply_ite BitVec.toInt, hwrap, eq_comm]

/-- Settles O50: a write that passes its check leaves `sp` in the array and a read one below it; of the faults only that of `call`
moves `sp`. -/
theorem stackPointerStaysInBounds : Obligations.StackPointerStaysInBounds := fun _ hlo hhi =>
  ⟨fun _ _ => exec_spInBounds ⟨hlo, hhi⟩, fun _ _ => exec_call_sp_bounds ⟨hlo, hhi⟩, inject_spInBounds ⟨hlo, hhi⟩⟩

/-- Settles O51: `pc + 1` is in range, so its token at the top of the stack reads back, and the two moves of `sp` cancel. -/
theorem retReturnsAfterTheCall : Obligations.RetReturnsAfterTheCall := by
  intro s t u target hn hpc hcall husp hucell
  rw [exec_call_inArray hn] at hcall
  cases hcall
  have hsp : u.reg .sp = wrap s.nextTop := by simpa using husp
  have hcell : u.cell s.nextTop.toNat = dec ((s.reg .pc).toInt + 1) :: (s.cell s.nextTop.toNat).tail :=
    hucell.trans (stored_memWrite s _ _).1
  have hret : inRange ((s.reg .pc).toInt + 1) :=
    inRange_of_le_memSize (by linarith only [hpc.1]) (Int.add_one_le_of_lt hpc.2)
  refine ⟨_, exec_ret_ok (readTop_of_dec hn hret hsp hcell), ?_, ?_⟩
  · simpa [reg_returnTo] using wrap_toInt hret
  · simpa [reg_returnTo, hsp] using wrap_nextTop_pred hn

/-- Settles O52: the effects of `push` and `pop` in turn: the pushed value reads back into `r`, and the moves of `sp` cancel. -/
theorem popAfterPushRestores : Obligations.PopAfterPushRestores := by
  intro s t r hrsp hrpc hn hpush
  obtain ⟨t', hpush', hsp, -, hregs, ⟨hcell, -⟩, -⟩ := (pushStoresRegister.2 r s).1 hn
  obtain rfl : t = t' := by simpa [hpush] using hpush'
  rw [if_neg hrsp, ← hsp] at hcell
  obtain ⟨-, hpops, -⟩ := popWritesDestination
  obtain ⟨u, hpop, hr, husp, -, huregs, hmem, -⟩ := hpops r t _ _ _ (hsp ▸ hn) hcell (parseInt_dec (toInt_inRange _))
  refine ⟨u, hpop, fun q hqpc => ?_, hmem⟩
  by_cases hqr : q = r
  · rw [hqr, BitVec.toInt_inj.mp (hr hrsp hrpc)]
  · by_cases hqsp : q = .sp
    · rw [hqsp, husp, if_neg hrsp, hsp, add_sub_cancel_right, wrap_of_toInt]
    · rw [huregs q hqr hqsp hqpc, hregs q hqpc hqsp]

end Sys2Proof
end

section
/-! PROOFS. Output (43_output.md). `out` is one `emit` and then the advance of `pc`. -/

namespace Sys2Proof

open Sys2Proof.Machine

/-- Settles O14: `emit` writes only the output stream, and the advance after it only `pc`. -/
theorem outAppendsToOutput : Obligations.OutAppendsToOutput := by
  refine ⟨decodesR_of_decodeOperands (o := .out) fun _ => rfl, fun r s =>
    ⟨(s.emit (s.reg r)).advancePc, rfl, ?output, ?pc, fun q hq => ?regs, fun a => ?memory, ?faultLog, ?run⟩⟩
  case output => rw [advancePc_output, emit_output]
  case pc => rw [reg_advancePc_pc, reg_emit]
  case regs => rw [reg_advancePc_ne _ hq, reg_emit]
  case memory => rw [cell_advancePc, cell_emit]
  case faultLog => rw [advancePc_faultLog, emit_faultLog]
  case run => rw [advancePc_run, emit_run]

end Sys2Proof
end

section
/-! PROOFS. Branches (44_branch.md). A branch either writes `pc` or advances it; with either, nothing else changes. -/

namespace Sys2Proof

open Sys2Proof.Machine Sys2Proof.Claims

/-- The frame of a branch: `t` is `s` but for `pc`. -/
def SameExceptPc (s t : State) : Prop := (∀ q, q ≠ .pc → t.reg q = s.reg q) ∧ SameMemory s t ∧ SamePorts s t

theorem sameExceptPc_setReg_pc (s : State) (v : Word) : SameExceptPc s (s.setReg .pc v) :=
  ⟨fun _ => reg_setReg_ne s v, cell_setReg s .pc v, setReg_output s .pc v, setReg_faultLog s .pc v, setReg_run s .pc v⟩

theorem sameExceptPc_advancePc (s : State) : SameExceptPc s s.advancePc :=
  ⟨fun _ => reg_advancePc_ne s, cell_advancePc s, advancePc_output s, advancePc_faultLog s, advancePc_run s⟩

/-- A target in range is written to `pc` exactly: `wrap` leaves it alone. -/
theorem pc_setReg_wrap_toInt (s : State) {target : Int} (h : inRange target) :
    ((s.setReg .pc (wrap target)).reg .pc).toInt = target := by
  rw [reg_setReg_same, wrap_toInt h]

/-- Settles O15: the handler writes the target to `pc`, and a target in range is written exactly. -/
theorem jmpSetsProgramCounter : Obligations.JmpSetsProgramCounter :=
  ⟨decodesI_of_decodeOperands (o := .jmp) fun _ => rfl, fun target s htarget =>
    ⟨s.setReg .pc (wrap target), rfl, pc_setReg_wrap_toInt s htarget, sameExceptPc_setReg_pc s _⟩⟩

/-- Settles O16: on a zero register the branch is the advance of `pc`, otherwise the jump to the target. -/
theorem jnzBranchesOnNonzero : Obligations.JnzBranchesOnNonzero := by
  refine ⟨decodesIR_of_decodeOperands (o := .jnz) fun _ => rfl, fun target test s htarget => ?_⟩
  by_cases htest : s.reg test = 0
  · exact ⟨s.advancePc, exec_jnz_not_taken htest, fun hne => absurd htest hne, fun _ => reg_advancePc_pc s,
      sameExceptPc_advancePc s⟩
  · exact ⟨s.setReg .pc (wrap target), exec_jnz_taken htest, fun _ => pc_setReg_wrap_toInt s htarget,
      fun hz => absurd hz htest, sameExceptPc_setReg_pc s _⟩

end Sys2Proof
end

section
/-! PROOFS. System (45_system.md). A step from `halt` not 0 is the halt check alone, whether it enters `Halted` or is there
already, and so it keeps the registers and the cells. -/

namespace Sys2Proof

open Sys2Proof.Machine

/-- R69, R122: with `halt` not 0 a step reaches `Halted` and writes no register and no cell. -/
theorem step_reaches_halted {s : State} (hhalt : s.reg .halt ≠ 0) :
    ∃ u, step s = .next u ∧ u.run = .halted ∧ (∀ q, u.reg q = s.reg q) ∧ SameMemory s u := by
  cases hrun : s.run with
  | running =>
    exact ⟨s.enterHalted, step_enterHalted hrun hhalt, enterHalted_run s, reg_enterHalted s, cell_enterHalted s⟩
  | halted => exact ⟨s, step_halted hrun, hrun, fun _ => rfl, fun _ => rfl⟩

/-- Settles O38: both clauses say what a step does from `halt` not 0, so how `halt` came to be written does not matter. -/
theorem haltFlagIsNeverCleared : Obligations.HaltFlagIsNeverCleared := by
  refine ⟨fun s t hstep hhalt => ?_, fun _ t _ hhalt => step_reaches_halted hhalt⟩
  obtain ⟨u, hu, -, hregs, -⟩ := step_reaches_halted hhalt
  obtain rfl : t = u := by simpa [hstep] using hu
  exact hregs .halt

/-- Settles O17: the handler is one register write and the advance of `pc`. -/
theorem haltSetsStopFlag : Obligations.HaltSetsStopFlag :=
  ⟨decodeCell_opcode .halt, fun s => ⟨(s.setReg .halt 1).advancePc, rfl, advanced_setReg_advancePc s .halt 1⟩⟩

end Sys2Proof
end

section
/-! PROOFS. The timer interrupt (R112 to R117). The end of a cycle is the tick and, when that leaves an armed timer at 0, the
injection, which on a legal stack is one push of `pc`, the jump to `ivec` and the disarming. The counting of `timer` and the return
follow from these effects. -/

namespace Sys2Proof.Machine

variable {s : State}

theorem toInt_eq_one_iff {w : Word} : w.toInt = 1 ↔ w = 1 := BitVec.toInt_inj (y := 1)

/-! ### Injection on a legal stack (R115) -/

theorem inject_faultLog (h : inArray s.nextTop) : s.inject.faultLog = s.faultLog := by
  simp [inject_inArray h]

/-- Injection stores the old `pc` at `sp + 1` as `MemWrite` does, the other tokens of the cell kept (R41). -/
theorem stored_inject (h : inArray s.nextTop) : Stored s.nextTop.toNat (s.reg .pc).toInt s s.inject :=
  ⟨by rw [cell_inject h, if_pos rfl], fun _ ha => by rw [cell_inject h, if_neg ha]⟩

/-! ### The countdown (R112, R113) -/

/-- The tick takes a positive timer down by exactly one: the difference stays in the range. -/
theorem tick_timer_toInt (h : 1 ≤ (s.reg .timer).toInt) : (s.tick.reg .timer).toInt = (s.reg .timer).toInt - 1 := by
  have hle := (toInt_inRange (s.reg .timer)).2
  rw [reg_tick_timer]
  exact wrap_toInt ⟨le_trans (by decide) (sub_nonneg.mpr h), (sub_one_lt _).le.trans hle⟩

/-- A timer above 1 is not due after the tick, so the cycle ends in the ticked state. -/
theorem endOfCycle_of_one_lt_timer (h : 1 < (s.reg .timer).toInt) : s.endOfCycle = s.tick := by
  refine endOfCycle_not_due fun ⟨_, hz⟩ => ?_
  have hzero := toInt_eq_zero_iff.mpr hz
  rw [tick_timer_toInt h.le] at hzero
  omega

/-- An armed timer at 1 is due after the tick. -/
theorem endOfCycle_of_timer_eq_one (hi : s.reg .int = 1) (h : (s.reg .timer).toInt = 1) : s.endOfCycle = s.tick.inject :=
  endOfCycle_due (by rwa [reg_tick_ne s (by decide)]) (by rw [reg_tick_timer, h]; rfl)

/-- While the handlers leave `timer` and `int` alone, the interrupt stays armed and the handler of cycle `k` leaves `timer` at
`n - k`. -/
theorem timer_counts_down {n : Nat} {σ τ : Nat → State} (hend : ∀ k, k < n → σ (k + 1) = (τ k).endOfCycle)
    (htimer : ((τ 0).reg .timer).toInt = (n : Int)) (hint : (τ 0).reg .int = 1)
    (hkeep : ∀ k, 0 < k → k < n → (τ k).reg .timer = (σ k).reg .timer ∧ (τ k).reg .int = (σ k).reg .int)
    {k : Nat} (hk : k < n) : ((τ k).reg .timer).toInt = (n : Int) - k ∧ (τ k).reg .int = 1 := by
  induction k with
  | zero => exact ⟨by simpa using htimer, hint⟩
  | succ k ih =>
    obtain ⟨ihtimer, ihint⟩ := ih (Nat.lt_of_succ_lt hk)
    obtain ⟨htimer', hint'⟩ := hkeep (k + 1) k.succ_pos hk
    have hσ : σ (k + 1) = (τ k).tick :=
      (hend k (Nat.lt_of_succ_lt hk)).trans (endOfCycle_of_one_lt_timer (by omega))
    rw [htimer', hint', hσ, tick_timer_toInt (by omega), reg_tick_ne _ (by decide)]
    exact ⟨by omega, ihint⟩

end Sys2Proof.Machine

namespace Sys2Proof

open Sys2Proof.Machine

/-- Settles O34: the ticked state is `State.tick`, and its timer and `int` decide whether the injection is due. -/
theorem cycleEndTicksThenInjects : Obligations.CycleEndTicksThenInjects := by
  refine fun s => ⟨s.tick, reg_tick_timer s, fun _ => reg_tick_ne s, cell_tick s,
    ⟨tick_output s, tick_faultLog s, tick_run s⟩, ?_⟩
  have hint : (s.reg .int).toInt = 1 ↔ s.tick.reg .int = 1 := by rw [toInt_eq_one_iff, reg_tick_ne s (by decide)]
  rw [hint]
  exact ⟨fun ⟨hi, ht⟩ => endOfCycle_due hi ht, endOfCycle_not_due⟩

/-- Settles O35: the bounds check of `sp + 1` decides between the writes of injection and its fault. -/
theorem injectionEntersTheHandler : Obligations.InjectionEntersTheHandler := by
  refine fun s => ⟨fun (hn : inArray s.nextTop) => ?_, fun hhi => ?_, fun hlo => ?_⟩
  · obtain ⟨houtput, hrun⟩ := inject_frame s
    refine ⟨?_, by simp [reg_inject hn], by simp [reg_inject hn], fun q hsp hpc hint => ?_, stored_inject hn,
      houtput, inject_faultLog hn, hrun⟩
    · simpa [reg_inject hn] using wrap_nextTop_toInt hn
    · simp [reg_inject hn, hsp, hpc, hint]
  · rw [inject_fault (stackFault_above hhi)]
    exact raised_raise _ s
  · rw [inject_fault (stackFault_below hlo)]
    exact raised_raise _ s

/-- Settles O53: the token of the injected `pc` reads back at the top of the stack, and the two moves of `sp` cancel. -/
theorem retResumesTheInterruptedProgram : Obligations.RetResumesTheInterruptedProgram := by
  intro s u hn husp hucell
  have hsp : u.reg .sp = wrap s.nextTop := by simpa [reg_inject hn] using husp
  have hcell : u.cell s.nextTop.toNat = dec (s.reg .pc).toInt :: (s.cell s.nextTop.toNat).tail :=
    hucell.trans (stored_inject hn).1
  refine ⟨_, exec_ret_ok (readTop_of_dec hn (toInt_inRange _) hsp hcell), ?_, ?_,
    fun q hpc hq => by simp [reg_returnTo, hpc, hq], fun _ => rfl⟩
  · simp [reg_returnTo]
  · simpa [reg_returnTo, hsp] using wrap_nextTop_pred hn

/-- Settles O54: `timer` is at `n - k` after the handler of cycle `k`, so above 1 in every cycle but the last, where it is 1. -/
theorem timerCountsCyclesToTheInjection : Obligations.TimerCountsCyclesToTheInjection := by
  intro n σ τ hn _ _ hend htimer hint hkeep
  have hcount {k : Nat} (hk : k < n) := timer_counts_down hend htimer hint hkeep hk
  refine ⟨fun k hk => ?_, ?_⟩
  · obtain ⟨hτ, -⟩ := hcount (Nat.lt_of_succ_lt hk)
    have hσ : σ (k + 1) = (τ k).tick :=
      (hend k (Nat.lt_of_succ_lt hk)).trans (endOfCycle_of_one_lt_timer (by omega))
    refine ⟨hσ, ?_⟩
    rw [hσ, tick_timer_toInt (by omega), hτ]
    omega
  · have hlast : n - 1 < n := Nat.sub_lt hn one_pos
    obtain ⟨hτ, hi⟩ := hcount hlast
    have hσ := hend (n - 1) hlast
    rw [Nat.sub_add_cancel hn] at hσ
    rw [hσ, endOfCycle_of_timer_eq_one hi (by omega)]

end Sys2Proof
end

section
/-! PROOFS. Faults over one step (R100, R103, R107, R108). A handler raises at most one fault and the end of its cycle at most one
more, each of them with `halt` set to 1, which the end of a cycle never clears. -/

namespace Sys2Proof.Machine

variable {s t u : State} {n : Nat}

/-- `t` has the reports of `s`, then at most `n` new ones, and `halt` 1 if there is a new one. -/
def LogGrows (n : Nat) (s t : State) : Prop :=
  ∃ new, t.faultLog = s.faultLog ++ new ∧ new.length ≤ n ∧ (new ≠ [] → t.reg .halt = 1)

theorem logGrows_of_faultLog_eq (h : t.faultLog = s.faultLog) : LogGrows 0 s t :=
  ⟨[], by simp [h], le_rfl, fun hne => absurd rfl hne⟩

namespace LogGrows

theorem mono {m : Nat} (h : LogGrows m s t) (hmn : m ≤ n) : LogGrows n s t := by
  obtain ⟨new, hlog, hlen, hhalt⟩ := h
  exact ⟨new, hlog, hlen.trans hmn, hhalt⟩

/-- Only the log and `halt` of the later state matter. -/
theorem congr (h : LogGrows n s t) (hl : u.faultLog = t.faultLog) (hh : u.reg .halt = t.reg .halt) : LogGrows n s u := by
  unfold LogGrows at h ⊢
  rwa [hl, hh]

theorem raise (h : LogGrows n s t) (f : FaultInfo) : LogGrows (n + 1) s (t.raise f) := by
  obtain ⟨new, hlog, hlen, -⟩ := h
  exact ⟨new ++ [{ pc := t.reg .pc, info := f }], by simp [hlog], by simpa using hlen, fun _ => reg_raise_halt t f⟩

theorem inject (h : LogGrows n s t) : LogGrows (n + 1) s t.inject := by
  rcases inject_cases t with ⟨f, hi⟩ | ⟨-, hi⟩ <;> rw [hi]
  · exact h.raise f
  · exact (h.mono n.le_succ).congr (by simp) (by simp)

theorem endOfCycle (h : LogGrows n s t) : LogGrows (n + 1) s t.endOfCycle := by
  have htick : LogGrows n s t.tick := h.congr (tick_faultLog t) (reg_tick_ne t (by decide))
  rcases endOfCycle_cases t with he | he <;> rw [he]
  · exact htick.mono n.le_succ
  · exact htick.inject

end LogGrows

theorem exec_logGrows {i : Instr} (h : exec i s = .next t) : LogGrows 1 s t := by
  obtain hc | ⟨u, f, rfl, -, hlog, -⟩ := exec_completes_or_raises h
  · exact (logGrows_of_faultLog_eq hc.faultLog_eq).mono zero_le_one
  · exact (logGrows_of_faultLog_eq hlog).raise f

/-- The handler and the end of its cycle log one report each at most (R107, R108). -/
theorem step_logGrows (h : step s = .next t) : LogGrows 2 s t := by
  have hsame : LogGrows 0 s s := logGrows_of_faultLog_eq rfl
  obtain ⟨-, rfl⟩ | ⟨-, -, rfl⟩ | ⟨-, -, f, -, rfl⟩ | ⟨-, -, f, -, rfl⟩ | ⟨-, -, i, u, -, he, rfl⟩ := step_cases h
  · exact hsame.mono zero_le_two
  · exact (hsame.congr (enterHalted_faultLog s) (reg_enterHalted s .halt)).mono zero_le_two
  · exact (hsame.raise f).mono one_le_two
  · exact (hsame.raise f).endOfCycle
  · exact (exec_logGrows he).endOfCycle

/-- A step that logs a fault ran a cycle, after which the engine is still `Running`: its halt check comes next (R69). -/
theorem step_run_of_faultLog_ne (h : step s = .next t) (hlog : t.faultLog ≠ s.faultLog) : t.run = .running := by
  obtain ⟨-, rfl⟩ | ⟨-, -, rfl⟩ | ⟨hrun, -, f, -, rfl⟩ | ⟨hrun, -, f, -, rfl⟩ | ⟨hrun, -, i, u, -, he, rfl⟩ := step_cases h
  · exact absurd rfl hlog
  · exact absurd (enterHalted_faultLog s) hlog
  · rw [raise_run, hrun]
  · rw [endOfCycle_run, raise_run, hrun]
  · rw [endOfCycle_run, exec_run he, hrun]

end Sys2Proof.Machine

namespace Sys2Proof

open Sys2Proof.Machine

/-- Settles O37: a new report leaves `halt` at 1, which the halt check of the next step finds. -/
theorem aFaultEndsTheRun : Obligations.AFaultEndsTheRun := by
  intro s t h hlog
  obtain ⟨new, hnew, hlen, hhalt⟩ := step_logGrows h
  have hne : new ≠ [] := by
    rintro rfl
    exact hlog (hnew.trans (List.append_nil _))
  have hhalt1 := hhalt hne
  have hhalt0 : t.reg .halt ≠ 0 := by rw [hhalt1]; decide
  exact ⟨hhalt1, step_enterHalted (step_run_of_faultLog_ne h hlog) hhalt0, new, hnew, List.length_pos_iff.mpr hne, hlen⟩

/-- Settles O29: every branch of a handler, and of the loop around it, ends in a next state. -/
theorem everyStepAnswersANextState : Obligations.EveryStepAnswersANextState := ⟨exec_answers_next, step_answers_next⟩

end Sys2Proof
end

section
/-! PROOFS. The final-state read-out (R29, R124): one entry for each register of `Reg.all` and one for each address of the array. -/

namespace Sys2Proof

open Sys2Proof.Machine

/-- Settles O56: both read-outs are maps, over the registers in declaration order and over the addresses in rising order. -/
theorem finalStateReadOut : Obligations.FinalStateReadOut := by
  obtain ⟨hnames, hall, -⟩ := registerTokensAreTheThirteenNames
  refine fun s => ⟨?names, fun r => ?register, ?length, fun a ha => ?cell⟩
  case names =>
    rw [finalRegisters, List.map_map]
    exact hnames
  case register => exact List.mem_map_of_mem (hall r)
  case length => rw [finalCells, List.length_map, List.length_range]
  case cell => rw [finalCells, List.getElem?_map, List.getElem?_range ha, Option.map_some]

end Sys2Proof
end

section
/-! PROOFS. Reset and the program image (70_reset_and_hazards.md R125 to R130). `boot` is the state after reset with the cells of
the image written over its memory, so that every register is 0 in it. No instruction writes both `int` and `timer`: after the
first handler one of the two is still 0, and the injection is not due. -/

namespace Sys2Proof.Machine

open Sys2Proof.Claims

/-! ### The cells of an image (R128) -/

/-- Whatever each whole-cell write of an image keeps of the memory, the image keeps. -/
theorem Memory.applyImage_induction {P : Memory → Prop} {img : Image} {m : Memory} (hm : P m)
    (hset : ∀ p ∈ img, ∀ m, P m → P (Memory.set m p.1 p.2)) : P (Memory.applyImage m img) := by
  induction img generalizing m with
  | nil => exact hm
  | cons p rest ih =>
    exact ih (hset p List.mem_cons_self m hm) fun q hq => hset q (List.mem_cons_of_mem p hq)

/-- A cell reads as the last pair that names it says, or as before the image (D24). -/
theorem Memory.read_applyImage (m : Memory) (img : Image) (a : Nat) :
    Memory.read (Memory.applyImage m img) a =
      ((img.reverse.find? (fun p => p.1 == a)).map Prod.snd).getD (Memory.read m a) := by
  induction img generalizing m with
  | nil => rfl
  | cons p rest ih =>
    rw [Memory.applyImage, ih, List.reverse_cons, List.find?_append, Memory.read_set]
    cases rest.reverse.find? (fun q => q.1 == a) with
    | some q => rfl
    | none =>
      by_cases hp : p.1 = a
      · simp [hp]
      · simp [hp, Ne.symm hp]

theorem imageCell_of_not_named {img : Image} {a : Nat} (h : ∀ p ∈ img, p.1 ≠ a) : imageCell img a = blankCell := by
  have hnone : img.reverse.find? (fun p => p.1 == a) = none := by simpa [List.find?_eq_none] using h
  rw [imageCell, hnone]
  rfl

theorem imageWf_iff {img : Image} :
    Image.wf img = true ↔ ∀ p ∈ img, p.1 < Config.memSize ∧ Cell.wf p.2 = true := by
  simp [Image.wf]

/-! ### The booted state (R125, R126, R129) -/

/-- An image that starts a run is well formed, and the run starts from reset with the image's cells written. -/
theorem boot_eq_some {img : Image} {s : State} :
    boot img = some s ↔
      Image.wf img = true ∧ s = { State.reset with mem := Memory.applyImage State.reset.mem img } := by
  rw [boot, Option.ite_none_right_eq_some, Option.some_inj, eq_comm (b := s)]

section
variable {img : Image} {s : State}

theorem reg_boot (h : boot img = some s) (q : Reg) : s.reg q = 0 := by
  obtain ⟨-, rfl⟩ := boot_eq_some.mp h
  exact reg_reset q

theorem boot_output (h : boot img = some s) : s.output = [] := by
  obtain ⟨-, rfl⟩ := boot_eq_some.mp h
  rfl

theorem boot_faultLog (h : boot img = some s) : s.faultLog = [] := by
  obtain ⟨-, rfl⟩ := boot_eq_some.mp h
  rfl

theorem boot_run (h : boot img = some s) : s.run = .running := by
  obtain ⟨-, rfl⟩ := boot_eq_some.mp h
  rfl

theorem cell_boot (h : boot img = some s) (a : Nat) : s.cell a = imageCell img a := by
  obtain ⟨-, rfl⟩ := boot_eq_some.mp h
  exact Memory.read_applyImage [] img a

theorem boot_memory_wf (h : boot img = some s) : Memory.wf s.mem = true := by
  obtain ⟨hwf, rfl⟩ := boot_eq_some.mp h
  exact Memory.applyImage_induction (P := fun m => Memory.wf m = true) rfl
    fun p hp _ hm => Memory.set_wf hm (imageWf_iff.mp hwf p hp).1

theorem boot_tokensWf (h : boot img = some s) : tokensWf s.mem = true := by
  obtain ⟨hwf, rfl⟩ := boot_eq_some.mp h
  exact Memory.applyImage_induction (P := fun m => tokensWf m = true) rfl
    fun p hp _ hm => tokensWf_set hm (imageWf_iff.mp hwf p hp).2

end

/-! ### The blank cell (R31, R127) -/

theorem readData_blank {s : State} {a : Int} (ha : inArray a) (hc : s.cell a.toNat = blankCell) : readData a s = .ok 0 := by
  rw [readData_inArray ha, hc]
  exact cellInt_some (by decide)

/-- The token of the blank cell is `dec 0`, which is no opcode. -/
theorem decodeCell_blank : decodeCell blankCell = .bad (.invalidOpcode "0".toList) := decodeCell_dec 0 []

/-! ### The first cycle (R114, R130) -/

/-- No instruction names both `int` and `timer` as a destination. -/
theorem int_or_timer_not_mem_writes (i : Instr) : .int ∉ writes i ∨ .timer ∉ writes i := by
  cases i with
  | mov dst | movv dst | load dst | loadr dst | pop dst =>
    by_cases hd : .int = dst
    · exact .inr (by simp [writes, ← hd])
    · exact .inl (by simp [writes, hd])
  | _ => exact .inl (by simp [writes])

/-- The injection is not due after a tick from `int` 0, nor after one that takes `timer` from 0 to -1. -/
theorem tick_not_due {s : State} (h : s.reg .int = 0 ∨ s.reg .timer = 0) :
    ¬ (s.tick.reg .int = 1 ∧ s.tick.reg .timer = 0) := by
  rintro ⟨hint, htimer⟩
  rcases h with h | h
  · rw [reg_tick_ne s (by decide), h] at hint
    exact absurd hint (by decide)
  · rw [reg_tick_timer, h] at htimer
    exact absurd htimer (by decide)

section
variable {s t : State}

/-- A handler that starts with `int` and `timer` 0 leaves one of them 0. -/
theorem exec_not_due {i : Instr} (hs : ∀ q, s.reg q = 0) (h : exec i s = .next t) :
    ¬ (t.tick.reg .int = 1 ∧ t.tick.reg .timer = 0) := by
  apply tick_not_due
  rcases int_or_timer_not_mem_writes i with hi | ht
  · exact .inl (by rw [exec_reg_of_not_mem_writes h hi (by decide), hs])
  · exact .inr (by rw [exec_reg_of_not_mem_writes h ht (by decide), hs])

theorem raise_not_due (hs : ∀ q, s.reg q = 0) (f : FaultInfo) :
    ¬ ((s.raise f).tick.reg .int = 1 ∧ (s.raise f).tick.reg .timer = 0) :=
  tick_not_due (.inl (by rw [reg_raise_ne s f (by decide), hs]))

/-- The first step of a run ends in a fetch or dispatch fault, or in the tick after its handler. -/
theorem step_of_regs_zero (hs : ∀ q, s.reg q = 0) (hrun : s.run = .running) (h : step s = .next t) :
    (∃ f, t = s.raise f) ∨ ∃ u, ((∃ i, exec i s = .next u) ∨ ∃ f, u = s.raise f) ∧ t = u.tick := by
  obtain ⟨hhalted, -⟩ | ⟨-, hhalt, -⟩ | ⟨-, -, f, -, rfl⟩ | ⟨-, -, f, -, rfl⟩ | ⟨-, -, i, u, -, he, rfl⟩ := step_cases h
  · rw [hrun] at hhalted
    cases hhalted
  · exact absurd (hs .halt) hhalt
  · exact .inl ⟨f, rfl⟩
  · exact .inr ⟨s.raise f, .inr ⟨f, rfl⟩, endOfCycle_not_due (raise_not_due hs f)⟩
  · exact .inr ⟨u, .inl ⟨i, he⟩, endOfCycle_not_due (exec_not_due hs he)⟩

end

end Sys2Proof.Machine

namespace Sys2Proof

open Sys2Proof.Machine

/-- Settles O41: every register is 0 before the first cycle, and its handler cannot write both `int` and `timer`. -/
theorem noInjectionInTheFirstCycle : Obligations.NoInjectionInTheFirstCycle := fun _ _ h =>
  ⟨fun _ _ he => exec_not_due (reg_boot h) he, raise_not_due (reg_boot h),
    fun _ hstep => step_of_regs_zero (reg_boot h) (boot_run h) hstep⟩

/-- Settles O43: the writes of a well-formed image keep the memory's form and tokens; the log is empty and the engine runs. -/
theorem bootMeetsTheInvariant : Obligations.BootMeetsTheInvariant := fun _ _ h =>
  ⟨boot_memory_wf h, boot_tokensWf h, logAtMost_two.mp (logAtMost_of_nil (boot_faultLog h)), by simp [boot_run h]⟩

/-- Settles O42: the state after reset is the booted state of the empty image. -/
theorem resetMeetsTheInvariant : Obligations.ResetMeetsTheInvariant := bootMeetsTheInvariant [] State.reset rfl

/-- Settles O40: a booted cell is that of the last pair naming it, and `boot` answers a state for the well-formed images only. -/
theorem programImageIsApplied : Obligations.ProgramImageIsApplied := by
  refine ⟨fun img s h => ⟨cell_boot h, reg_boot h, boot_output h, boot_faultLog h, boot_run h⟩, ?_, fun img hwf =>
    ⟨_, boot_eq_some.mpr ⟨imageWf_iff.mpr hwf, rfl⟩⟩⟩
  rintro img ⟨p, hp, hout⟩
  refine Option.eq_none_iff_forall_ne_some.mpr fun s h => ?_
  obtain ⟨hwf, -⟩ := boot_eq_some.mp h
  exact absurd (imageWf_iff.mp hwf p hp).1 (not_lt.mpr hout)

/-- Settles O39: a cell that no pair names is blank, and the blank cell's token is the integer 0 and no opcode. -/
theorem resetState : Obligations.ResetState := by
  refine ⟨reg_reset, fun _ => rfl, rfl, rfl, rfl, fun img s h => ⟨reg_boot h, fun a hnot => ?_⟩, fun s a ha hc => ?_⟩
  · exact (cell_boot h a).trans (imageCell_of_not_named hnot)
  · exact ⟨readData_blank ha hc, hc ▸ decodeCell_blank⟩

end Sys2Proof
end

section
/-! PROOFS. Dispatch on token 0 (30_encoding.md R59, R64, R65). A cell is `InvalidOpcode` exactly when its first token selects no
opcode: the handler of an opcode that is selected faults on operands only. -/

namespace Sys2Proof

open Sys2Proof.Machine

theorem Opcode.ofToken_eq_none {t : Token} : Opcode.ofToken t = none ↔ t ∉ Opcode.all.map Opcode.name := by
  simp [Opcode.ofToken]

/-- Every fault of operand decoding is one of the handler's, and `InvalidOpcode` is not (R75). -/
theorem decodeOperands_ne_invalidOpcode (o : Opcode) (ts : List Token) (t : Token) :
    decodeOperands o ts ≠ .bad (.invalidOpcode t) := fun h =>
  nomatch faultsInHandler_decodeOperands o ts _ h

theorem decodeCell_eq_invalidOpcode {t : Token} {ts : List Token} :
    decodeCell (t :: ts) = .bad (.invalidOpcode t) ↔ Opcode.ofToken t = none := by
  refine ⟨fun h => ?_, decodeCell_not_opcode ts⟩
  cases ho : Opcode.ofToken t with
  | none => rfl
  | some o =>
    obtain rfl := Opcode.name_of_ofToken ho
    exact absurd (decodeCell_opcode o ts ▸ h) (decodeOperands_ne_invalidOpcode o ts _)

/-- The one name that registers and opcodes share is `halt`. -/
theorem Opcode.ofToken_reg_name {r : Reg} (h : r ≠ .halt) : Opcode.ofToken r.name = none := by
  cases r with
  | halt => exact absurd rfl h
  | _ => decide

/-- Settles O22: token 0 selects one of the 17 names or none, and no integer and no register but `halt` has such a name. -/
theorem otherFirstTokensAreInvalidOpcodes : Obligations.OtherFirstTokensAreInvalidOpcodes :=
  ⟨fun _ _ => decodeCell_eq_invalidOpcode.trans Opcode.ofToken_eq_none,
    fun _ ts _ hv => decodeCell_not_opcode ts (Opcode.ofToken_of_parseDecimal (parseInt_eq_some.mp hv).1),
    fun _ ts hr => decodeCell_not_opcode ts (Opcode.ofToken_reg_name hr)⟩

/-- Settles O25: each of the cells is the encoding of its instruction, the last with one token more. -/
theorem writtenOutCellsDecode : Obligations.WrittenOutCellsDecode :=
  have decodes (i : Instr) (extra : List Token) (hi : i.wf = true) : decodeCell (encode i ++ extra) = .instr i :=
    decodeOfEncodeIsTheInstruction i extra hi
  ⟨decodes (.mov .b .a) [] rfl, decodes (.load .d 95) [] rfl, decodes (.store 95 .c) [] rfl, decodes (.sub .a .b) [] rfl,
    decodes (.call 10) [] rfl, decodes (.out .acc) [] rfl, decodes (.jnz 4 .a) [] rfl, decodes .halt ["x".toList] rfl⟩

end Sys2Proof
end

section
/-! PROOFS. The halt check and the fault-report port (R69, R101 to R104, R122). The halt check writes the run state alone, and a
fault adds its one report at the end of the port. -/

namespace Sys2Proof

open Sys2Proof.Machine

/-- Settles O36: the halt check is `enterHalted`, and no step of a run leaves a state in `Halted`. -/
theorem haltedIsTerminal : Obligations.HaltedIsTerminal :=
  ⟨fun _ hrun hhalt => step_enterHalted hrun hhalt,
    fun s => ⟨reg_enterHalted s, cell_enterHalted s, enterHalted_output s, enterHalted_faultLog s, enterHalted_run s⟩,
    fun k _ hrun => core_run_halted hrun k⟩

theorem faultPort_raise (s : State) (f : FaultInfo) :
    faultPort (s.raise f) = faultPort s ++ [FaultReport.onPort { pc := s.reg .pc, info := f }] := by
  rw [faultPort, raise_faultLog, List.map_append]
  rfl

/-- Settles O55: the kinds and codes are the table's rows, `onPort` copies a report's fields, and the port maps the fault log. -/
theorem faultReportFields : Obligations.FaultReportFields :=
  ⟨rfl, fun _ => rfl, fun _ => rfl, fun _ => rfl, fun _ => rfl, fun _ => rfl, fun _ => rfl, fun _ => rfl, fun _ => rfl,
    fun _ => ⟨rfl, rfl, rfl, rfl⟩, rfl, faultPort_raise⟩

end Sys2Proof
end
